-- ==== Sys2Proof/Word.lean ====
section
/-! DEFINITION. The widths of the core's values (spec 00_scope.md R4, R8): 8-bit bytes, 16-bit words,
12-bit direct addresses and 4-bit instruction nibbles. Every value is unsigned. -/

namespace Sys2Proof

/-- An unsigned 8-bit value, `u8` of R8: a register, a timer, a byte of memory. -/
abbrev Byte := BitVec 8

/-- An unsigned 16-bit value, `u16` of R8: PC, I, IR, a call-stack slot. -/
abbrev Word := BitVec 16

/-- A 12-bit direct address, the `nnn` field of R51. -/
abbrev Addr12 := BitVec 12

/-- A 4-bit slice of an instruction word (glossary of 00_scope.md). -/
abbrev Nibble := BitVec 4

end Sys2Proof
end

