-- ==== Sys2Proof/Config.lean ====
section
/-! DEFINITION. What is fixed for the core (00_scope.md R4) and the one free value of the model:
the random draw of RND (R6), which has no body, so no proof can see a value of it. -/

namespace Sys2Proof.Config

/-- Bytes of MEM, addresses 0x000 to 0xFFF (R4, R31). -/
@[simp] abbrev memSize : Nat := 4096

/-- FONT_BASE, where the glyph font starts (R4). -/
@[simp] abbrev fontBase : Nat := 0x050

/-- Bytes of the font: 16 glyphs of 5 bytes (R4). -/
@[simp] abbrev fontSize : Nat := 80

/-- Bytes of one glyph (R4). -/
@[simp] abbrev glyphBytes : Nat := 5

/-- PROG_ORIGIN: the reset value of PC and the load address of the program image (R4, R129, R131). -/
@[simp] abbrev progOrigin : Nat := 0x200

/-- The longest program image Load accepts (R132): from PROG_ORIGIN to the end of MEM. -/
@[simp] abbrev maxImage : Nat := 3584

/-- STACK_DEPTH: return addresses the call stack holds (R4, R19). -/
@[simp] abbrev stackDepth : Nat := 16

/-- Columns of the framebuffer (R4, R25). -/
@[simp] abbrev fbWidth : Nat := 64

/-- Rows of the framebuffer (R4, R25). -/
@[simp] abbrev fbHeight : Nat := 32

/-- `RandomDraw()` of R6, R73 and R99: the byte of the k-th draw, under no law. A FREE VALUE: nothing constrains
it (log entry 1). State's `draws` counts the draws taken, so that each execution of RND takes a fresh one. -/
opaque randomDraw : Nat → Byte

end Sys2Proof.Config
end

