-- ==== Sys2Proof/Syntax.lean ====
section
/-! DEFINITION. The instructions, one constructor for each of the 34 rows of the opcode map
(30_encoding.md R54, spec/opcode_table.json). Operands are the fields of R51. -/

namespace Sys2Proof

/-- A register index: the `x` or `y` field, naming V0 to VF (R11, R51). -/
abbrev Reg := Fin 16

/-- VF, the register that is also the flag register (R12). -/
abbrev vF : Reg := 15

/-- An instruction. `n` of DRW is a count of sprite rows (R52), a natural number that WellFormed bounds;
every other field's width is in its type. -/
inductive Instr where
  /-- CLS, 00E0 (R112). -/
  | cls
  /-- RET, 00EE (R78). -/
  | ret
  /-- JP addr, 1nnn (R79). -/
  | jp (nnn : Addr12)
  /-- CALL addr, 2nnn (R80). -/
  | call (nnn : Addr12)
  /-- SE Vx, byte, 3xkk (R81). -/
  | seByte (x : Reg) (kk : Byte)
  /-- SNE Vx, byte, 4xkk (R82). -/
  | sneByte (x : Reg) (kk : Byte)
  /-- SE Vx, Vy, 5xy0 (R83). -/
  | seReg (x y : Reg)
  /-- LD Vx, byte, 6xkk (R88). -/
  | ldByte (x : Reg) (kk : Byte)
  /-- ADD Vx, byte, 7xkk (R89). -/
  | addByte (x : Reg) (kk : Byte)
  /-- LD Vx, Vy, 8xy0 (R90). -/
  | ldReg (x y : Reg)
  /-- OR Vx, Vy, 8xy1 (R91). -/
  | orReg (x y : Reg)
  /-- AND Vx, Vy, 8xy2 (R92). -/
  | andReg (x y : Reg)
  /-- XOR Vx, Vy, 8xy3 (R93). -/
  | xorReg (x y : Reg)
  /-- ADD Vx, Vy, 8xy4 (R94). -/
  | addReg (x y : Reg)
  /-- SUB Vx, Vy, 8xy5 (R95). -/
  | subReg (x y : Reg)
  /-- SHR Vx, 8xy6 (R96). The `y` field is decoded and not used (R56). -/
  | shr (x y : Reg)
  /-- SUBN Vx, Vy, 8xy7 (R97). -/
  | subnReg (x y : Reg)
  /-- SHL Vx, 8xyE (R98). The `y` field is decoded and not used (R56). -/
  | shl (x y : Reg)
  /-- SNE Vx, Vy, 9xy0 (R84). -/
  | sneReg (x y : Reg)
  /-- LD I, addr, Annn (R101). -/
  | ldI (nnn : Addr12)
  /-- JP V0, addr, Bnnn (R85). -/
  | jpV0 (nnn : Addr12)
  /-- RND Vx, byte, Cxkk (R99). -/
  | rnd (x : Reg) (kk : Byte)
  /-- DRW Vx, Vy, n, Dxyn (R113). -/
  | drw (x y : Reg) (n : Nat)
  /-- SKP Vx, Ex9E (R86). -/
  | skp (x : Reg)
  /-- SKNP Vx, ExA1 (R87). -/
  | sknp (x : Reg)
  /-- LD Vx, DT, Fx07 (R107). -/
  | ldVxDt (x : Reg)
  /-- LD Vx, K, Fx0A (R108). -/
  | ldVxK (x : Reg)
  /-- LD DT, Vx, Fx15 (R109). -/
  | ldDtVx (x : Reg)
  /-- LD ST, Vx, Fx18 (R110). -/
  | ldStVx (x : Reg)
  /-- ADD I, Vx, Fx1E (R102). -/
  | addI (x : Reg)
  /-- LD F, Vx, Fx29 (R103). -/
  | ldF (x : Reg)
  /-- LD B, Vx, Fx33 (R104). -/
  | ldB (x : Reg)
  /-- LD [I], Vx, Fx55: store V0 to Vx (R105). -/
  | storeRegs (x : Reg)
  /-- LD Vx, [I], Fx65: load V0 to Vx (R106). -/
  | loadRegs (x : Reg)
  deriving DecidableEq, Repr

end Sys2Proof
end

