-- ==== Sys2Proof/Decode.lean ====
section
/-! DEFINITION. Decoding (30_encoding.md R49 to R61), total on any bytes, and after it the encoder, both written from
the opcode map of R54. -/

namespace Sys2Proof

/-- Why bytes are no instruction. Both are rejections by name. -/
inductive DecodeError where
  /-- Fewer than the two bytes every instruction has (R49). Never raised by the core, whose fetch always reads two. -/
  | truncated
  /-- R60: the word matches no row of R54; the core raises DecodeFault(IR) for it (R115). -/
  | unrecognized (w : Word)
  deriving DecidableEq, Repr

/-! ### Fields (R51) -/

/-- `op = IR[15:12]`. -/
def opField (w : Word) : Nibble := w.extractLsb' 12 4

/-- `IR[11:8]`, the bits of `x`. -/
def xBits (w : Word) : Nibble := w.extractLsb' 8 4

/-- `IR[7:4]`, the bits of `y`. -/
def yBits (w : Word) : Nibble := w.extractLsb' 4 4

/-- `IR[3:0]`: the bits of `n`, and the function nibble fn4 of R50. -/
def nBits (w : Word) : Nibble := w.extractLsb' 0 4

/-- A 4-bit field as the register it names. -/
def regOfBits (b : Nibble) : Reg := b.toFin

/-- `x = IR[11:8]`. -/
def xField (w : Word) : Reg := regOfBits (xBits w)

/-- `y = IR[7:4]`. -/
def yField (w : Word) : Reg := regOfBits (yBits w)

/-- `n = IR[3:0]`, a count of sprite rows. -/
def nField (w : Word) : Nat := (nBits w).toNat

/-- `kk = IR[7:0]`: an immediate byte, and the function byte fn8 of R50. -/
def kkField (w : Word) : Byte := w.extractLsb' 0 8

/-- `nnn = IR[11:0]`. -/
def nnnField (w : Word) : Addr12 := w.extractLsb' 0 12

/-! ### The families that need more than the top nibble (R55 to R59) -/

/-- Family 0x0 (R55): bits 11..8 must be 0 and the low byte selects the instruction. -/
def decodeFamily0 (w : Word) : Except DecodeError Instr :=
  if w = 0x00E0#16 then .ok .cls
  else if w = 0x00EE#16 then .ok .ret
  else .error (.unrecognized w)

/-- Families 0x5 and 0x9 (R59): the low nibble must be 0. -/
def decodeLowNibbleZero (i : Instr) (w : Word) : Except DecodeError Instr :=
  if nBits w = 0x0#4 then .ok i else .error (.unrecognized w)

/-- Family 0x8 (R56): the low nibble fn4 selects the instruction. -/
def decodeFamily8 (w : Word) : Except DecodeError Instr :=
  match (nBits w).toNat with
  | 0x0 => .ok (.ldReg (xField w) (yField w))
  | 0x1 => .ok (.orReg (xField w) (yField w))
  | 0x2 => .ok (.andReg (xField w) (yField w))
  | 0x3 => .ok (.xorReg (xField w) (yField w))
  | 0x4 => .ok (.addReg (xField w) (yField w))
  | 0x5 => .ok (.subReg (xField w) (yField w))
  | 0x6 => .ok (.shr (xField w) (yField w))
  | 0x7 => .ok (.subnReg (xField w) (yField w))
  | 0xE => .ok (.shl (xField w) (yField w))
  | _ => .error (.unrecognized w)

/-- Family 0xE (R57): the low byte fn8 selects the instruction. -/
def decodeFamilyE (w : Word) : Except DecodeError Instr :=
  match (kkField w).toNat with
  | 0x9E => .ok (.skp (xField w))
  | 0xA1 => .ok (.sknp (xField w))
  | _ => .error (.unrecognized w)

/-- Family 0xF (R58): the low byte fn8 selects the instruction. -/
def decodeFamilyF (w : Word) : Except DecodeError Instr :=
  match (kkField w).toNat with
  | 0x07 => .ok (.ldVxDt (xField w))
  | 0x0A => .ok (.ldVxK (xField w))
  | 0x15 => .ok (.ldDtVx (xField w))
  | 0x18 => .ok (.ldStVx (xField w))
  | 0x1E => .ok (.addI (xField w))
  | 0x29 => .ok (.ldF (xField w))
  | 0x33 => .ok (.ldB (xField w))
  | 0x55 => .ok (.storeRegs (xField w))
  | 0x65 => .ok (.loadRegs (xField w))
  | _ => .error (.unrecognized w)

/-- Decode of a word (R53): the top nibble selects a family. -/
def decodeWord (w : Word) : Except DecodeError Instr :=
  match (opField w).toNat with
  | 0x0 => decodeFamily0 w
  | 0x1 => .ok (.jp (nnnField w))
  | 0x2 => .ok (.call (nnnField w))
  | 0x3 => .ok (.seByte (xField w) (kkField w))
  | 0x4 => .ok (.sneByte (xField w) (kkField w))
  | 0x5 => decodeLowNibbleZero (.seReg (xField w) (yField w)) w
  | 0x6 => .ok (.ldByte (xField w) (kkField w))
  | 0x7 => .ok (.addByte (xField w) (kkField w))
  | 0x8 => decodeFamily8 w
  | 0x9 => decodeLowNibbleZero (.sneReg (xField w) (yField w)) w
  | 0xA => .ok (.ldI (nnnField w))
  | 0xB => .ok (.jpV0 (nnnField w))
  | 0xC => .ok (.rnd (xField w) (kkField w))
  | 0xD => .ok (.drw (xField w) (yField w) (nField w))
  | 0xE => decodeFamilyE w
  | 0xF => decodeFamilyF w
  | _ => .error (.unrecognized w)

/-! ### Words and bytes -/

/-- `concat(hi, lo)` (R8): the instruction word is big-endian, its first byte is bits 15..8 (R34). -/
def concatBytes (hi lo : Byte) : Word := hi ++ lo

/-- Bits 15..8, the byte at the lower address. -/
def highByte (w : Word) : Byte := w.extractLsb' 8 8

/-- Bits 7..0, the byte at the higher address. -/
def lowByte (w : Word) : Byte := w.extractLsb' 0 8

/-- The two bytes of a word as MEM holds them, lowest address first (R34). -/
def wordBytes (w : Word) : List Byte := [highByte w, lowByte w]

/-- Decode from a list of bytes: the instruction and the bytes after it. -/
def decodeBytes : List Byte → Except DecodeError (Instr × List Byte)
  | hi :: lo :: rest =>
    match decodeWord (concatBytes hi lo) with
    | .ok i => .ok (i, rest)
    | .error e => .error e
  | [_] => .error .truncated
  | [] => .error .truncated

/-! ### The encoder (R50, R54) -/

/-- A register index as a 4-bit field. -/
def regBits (r : Reg) : Nibble := BitVec.ofFin r

/-- Formats A of R50: `op nnn`. -/
def wordA (op : Nibble) (nnn : Addr12) : Word := op ++ nnn

/-- Formats XK and XF of R50: `op x kk`, or `op x fn8`. -/
def wordXK (op : Nibble) (x : Reg) (kk : Byte) : Word := op ++ regBits x ++ kk

/-- Formats XY and XYN of R50: `op x y fn4`, or `op x y n`. -/
def wordXY (op : Nibble) (x y : Reg) (fn4 : Nibble) : Word := op ++ regBits x ++ regBits y ++ fn4

/-- The word of a well-formed instruction (R54). -/
def encode : Instr → Word
  | .cls => 0x00E0#16
  | .ret => 0x00EE#16
  | .jp nnn => wordA 0x1#4 nnn
  | .call nnn => wordA 0x2#4 nnn
  | .seByte x kk => wordXK 0x3#4 x kk
  | .sneByte x kk => wordXK 0x4#4 x kk
  | .seReg x y => wordXY 0x5#4 x y 0x0#4
  | .ldByte x kk => wordXK 0x6#4 x kk
  | .addByte x kk => wordXK 0x7#4 x kk
  | .ldReg x y => wordXY 0x8#4 x y 0x0#4
  | .orReg x y => wordXY 0x8#4 x y 0x1#4
  | .andReg x y => wordXY 0x8#4 x y 0x2#4
  | .xorReg x y => wordXY 0x8#4 x y 0x3#4
  | .addReg x y => wordXY 0x8#4 x y 0x4#4
  | .subReg x y => wordXY 0x8#4 x y 0x5#4
  | .shr x y => wordXY 0x8#4 x y 0x6#4
  | .subnReg x y => wordXY 0x8#4 x y 0x7#4
  | .shl x y => wordXY 0x8#4 x y 0xE#4
  | .sneReg x y => wordXY 0x9#4 x y 0x0#4
  | .ldI nnn => wordA 0xA#4 nnn
  | .jpV0 nnn => wordA 0xB#4 nnn
  | .rnd x kk => wordXK 0xC#4 x kk
  | .drw x y n => wordXY 0xD#4 x y (BitVec.ofNat 4 n)
  | .skp x => wordXK 0xE#4 x 0x9E#8
  | .sknp x => wordXK 0xE#4 x 0xA1#8
  | .ldVxDt x => wordXK 0xF#4 x 0x07#8
  | .ldVxK x => wordXK 0xF#4 x 0x0A#8
  | .ldDtVx x => wordXK 0xF#4 x 0x15#8
  | .ldStVx x => wordXK 0xF#4 x 0x18#8
  | .addI x => wordXK 0xF#4 x 0x1E#8
  | .ldF x => wordXK 0xF#4 x 0x29#8
  | .ldB x => wordXK 0xF#4 x 0x33#8
  | .storeRegs x => wordXK 0xF#4 x 0x55#8
  | .loadRegs x => wordXK 0xF#4 x 0x65#8

/-- The instruction's bytes as MEM holds them. -/
def encodeBytes (i : Instr) : List Byte := wordBytes (encode i)

/-! ### The opcode map as masks and matches (R54) -/

/-- `(mask, match)` of the instruction's row of R54. -/
def Instr.row : Instr → Word × Word
  | .cls => (0xFFFF, 0x00E0)
  | .ret => (0xFFFF, 0x00EE)
  | .jp _ => (0xF000, 0x1000)
  | .call _ => (0xF000, 0x2000)
  | .seByte _ _ => (0xF000, 0x3000)
  | .sneByte _ _ => (0xF000, 0x4000)
  | .seReg _ _ => (0xF00F, 0x5000)
  | .ldByte _ _ => (0xF000, 0x6000)
  | .addByte _ _ => (0xF000, 0x7000)
  | .ldReg _ _ => (0xF00F, 0x8000)
  | .orReg _ _ => (0xF00F, 0x8001)
  | .andReg _ _ => (0xF00F, 0x8002)
  | .xorReg _ _ => (0xF00F, 0x8003)
  | .addReg _ _ => (0xF00F, 0x8004)
  | .subReg _ _ => (0xF00F, 0x8005)
  | .shr _ _ => (0xF00F, 0x8006)
  | .subnReg _ _ => (0xF00F, 0x8007)
  | .shl _ _ => (0xF00F, 0x800E)
  | .sneReg _ _ => (0xF00F, 0x9000)
  | .ldI _ => (0xF000, 0xA000)
  | .jpV0 _ => (0xF000, 0xB000)
  | .rnd _ _ => (0xF000, 0xC000)
  | .drw _ _ _ => (0xF000, 0xD000)
  | .skp _ => (0xF0FF, 0xE09E)
  | .sknp _ => (0xF0FF, 0xE0A1)
  | .ldVxDt _ => (0xF0FF, 0xF007)
  | .ldVxK _ => (0xF0FF, 0xF00A)
  | .ldDtVx _ => (0xF0FF, 0xF015)
  | .ldStVx _ => (0xF0FF, 0xF018)
  | .addI _ => (0xF0FF, 0xF01E)
  | .ldF _ => (0xF0FF, 0xF029)
  | .ldB _ => (0xF0FF, 0xF033)
  | .storeRegs _ => (0xF0FF, 0xF055)
  | .loadRegs _ => (0xF0FF, 0xF065)

/-- The 34 rows of R54 in its order, each as `(mask, match)`. -/
def opcodeMap : List (Word × Word) :=
  [(0xFFFF, 0x00E0), (0xFFFF, 0x00EE), (0xF000, 0x1000), (0xF000, 0x2000), (0xF000, 0x3000), (0xF000, 0x4000),
   (0xF00F, 0x5000), (0xF000, 0x6000), (0xF000, 0x7000)] ++
  [(0xF00F, 0x8000), (0xF00F, 0x8001), (0xF00F, 0x8002), (0xF00F, 0x8003), (0xF00F, 0x8004), (0xF00F, 0x8005),
   (0xF00F, 0x8006), (0xF00F, 0x8007), (0xF00F, 0x800E)] ++
  [(0xF00F, 0x9000), (0xF000, 0xA000), (0xF000, 0xB000), (0xF000, 0xC000), (0xF000, 0xD000)] ++
  [(0xF0FF, 0xE09E), (0xF0FF, 0xE0A1)] ++
  [(0xF0FF, 0xF007), (0xF0FF, 0xF00A), (0xF0FF, 0xF015), (0xF0FF, 0xF018), (0xF0FF, 0xF01E), (0xF0FF, 0xF029),
   (0xF0FF, 0xF033), (0xF0FF, 0xF055), (0xF0FF, 0xF065)]

/-- "A word decodes to a row when `(IR & mask) = match`" (R54). -/
def rowMatches (r : Word × Word) (w : Word) : Bool := decide (w &&& r.1 = r.2)

/-! ### The host's reading of a table word -/

/-- The word the opcode table numbers `w` in `nbits` bits: an instruction is one 16-bit word, its table bit 0 is bit 0
of the word, and a bit above `nbits` is 0. -/
def tableWord (nbits w : Nat) : Word := BitVec.ofNat 16 (w % 2 ^ nbits)

/-- The instruction the decoder reads from the bytes of a table word, laid out as MEM stores them. -/
def decodeTableWord (nbits w : Nat) : Option Instr :=
  match decodeBytes (wordBytes (tableWord nbits w)) with
  | .ok (i, _) => some i
  | .error _ => none

end Sys2Proof
end

