-- ==== Sys2Proof/Machine/State.lean ====
section
/-! DEFINITION. Everything the spec gives the core (10_state.md R28), as plain data, with its reset values (R29), and
four fields of the model's own: the parameter FONT that Reset writes, the count of random draws, the host's schedule of
actions, and how far the boot order of R133 has come. -/

namespace Sys2Proof.Machine

/-- MEM as the cells that differ from what an unlisted address reads as (`Memory.unlisted`), addresses strictly
rising: `Memory.wf` says the form. -/
abbrev Memory := List Host.Cell

/-- The framebuffer (R25): 32 rows of 64 binary pixels; FB[y * 64 + x], the pixel (x, y), is bit `x` of row `y`, and 1
is on (log entry 4). -/
abbrev Framebuffer := Vector (BitVec 64) 32

/-- The causes of a core fault (60_exceptions.md R114). A cause is DATA of the FAULT record, not an outcome of the
step: the spec gives every fault its effect on the state (R118), so a fault is a next state. -/
inductive FaultCause where
  /-- R115: the decode step, for a word no row matches. -/
  | decode
  /-- R37, R39: the fetch, DRW, LD B, LD [I] and LD Vx, [I], for an address outside MEM. -/
  | memoryBounds
  /-- R116: CALL with SP = 16. -/
  | stackOverflow
  /-- R117: RET with SP = 0. -/
  | stackUnderflow
  /-- R86, R87: SKP and SKNP with V[x] > 15. -/
  | keyIndex
  deriving DecidableEq, Repr

/-- The FaultRecord of R27: the cause, the address A of the faulting instruction, its word when one was fetched, and
the information value of R114. -/
structure FaultRecord where
  cause : FaultCause
  addr : Word
  word : Option Word
  info : Nat
  deriving DecidableEq, Repr

/-- The actions of the core's interface (40_cycle.md R72), each an atomic transition. -/
inductive HostAction where
  /-- One fetch-decode-execute (R70, R73). -/
  | cycle
  /-- KEY[k] <- b (R74). -/
  | setKey (k : Fin 16) (b : Bool)
  /-- DT and ST each move one toward 0 (R75). -/
  | timerDecay
  /-- The host observes the state (R76). -/
  | read
  /-- The state of R29 (R128, R130). -/
  | reset
  /-- The loader copies a program image to MEM from 0x200 (R131); `none` is an image that cannot be read (R132). -/
  | load (image : Option (List Byte))
  deriving DecidableEq, Repr

/-- How far the boot order has come: "Reset, then one successful Load, then Cycle actions" (R133). -/
inductive BootPhase where
  /-- Reset, and no Load since. -/
  | awaitingLoad
  /-- Reset, and one successful Load since: Cycles may be performed. -/
  | loaded
  /-- Reset, and a failed Load since: nothing but a Reset leads on (R132). -/
  | loadFailed
  deriving DecidableEq, Repr

/-- The state of the core. -/
structure State where
  /-- V0 to VF; VF is also the flag register (R11, R12). -/
  v : Vector Byte 16
  /-- I, the index register (R18). -/
  i : Word
  /-- PC, the program counter (R14). -/
  pc : Word
  /-- SP, the number of return addresses on the call stack, 0 to 16 (R19). -/
  sp : Fin 17
  /-- STACK[0] to STACK[15] (R19, R21). -/
  stack : Vector Word 16
  /-- DT, the delay timer (R22). -/
  dt : Byte
  /-- ST, the sound timer (R23). -/
  st : Byte
  /-- KEY[0] to KEY[15], the input latch (R24). -/
  key : Vector Bool 16
  /-- FB, the framebuffer (R25). -/
  fb : Framebuffer
  /-- IR, the current instruction (R26). -/
  ir : Word
  /-- MEM (R31). -/
  mem : Memory
  /-- FAULT (R27); while it is not `none` the core executes no cycle (R65). -/
  fault : Option FaultRecord
  /-- The parameter FONT (R5): the bytes Reset seeds at 0x050. No step changes it (log entry 5). -/
  font : Vector Byte 80
  /-- The model's own: how many random draws RND has taken (log entry 1). -/
  draws : Nat
  /-- The model's own: the host's coming actions, next first; when none is left the host requests a Cycle
  (log entry 2). -/
  schedule : List HostAction
  /-- The model's own: how far the boot order has come since the last Reset; a Cycle may be performed only after one
  successful Load (R77, R132, R133; log entry 8). -/
  boot : BootPhase
  deriving DecidableEq, Repr

/-- Why the machine stops with a fault outcome: never. Every fault of the spec has an effect the spec describes (R118:
the state as at the start of the cycle, FAULT set), so it is a next state, and nothing raises an outcome of this
type (log entry 3). It has no constructors; a stop that does not exist is safe. -/
inductive Fault where
  deriving DecidableEq, Repr

/-- Why the machine refuses to go on. -/
inductive Refusal where
  /-- An instruction whose arm of `exec` has no meaning yet. Raised by no arm of this model. Safe. -/
  | notModelled (mnemonic : String)
  /-- Raised by the host action Cycle when no Load has succeeded since the last Reset: "the machine must never begin
  executing from a partially-loaded or zero-filled program image" (R77, R132, R133). Safe: the run ends. -/
  | noProgramLoaded
  /-- Raised by the host action Load on a state that is not one just produced by Reset, where R77 gives it no
  effect. Safe: the run ends. -/
  | loadOutOfOrder
  deriving DecidableEq, Repr

/-- What a meaning answers. -/
abbrev Result := Host.Outcome State Fault Refusal

/-- The machine right after reset (R29, R128): the font is what unlisted memory reads as in 0x050 to 0x09F
(`Memory.unlisted`), so MEM lists nothing. `font` is the default FONT (log entry 5); `draws`, `schedule` and
`boot` are DESIGN CHOICES (log entries 1, 2 and 8). -/
def State.reset : State where
  v := Vector.replicate 16 0#8
  i := 0#16
  pc := 0x200#16
  sp := 0
  stack := Vector.replicate 16 0#16
  dt := 0#8
  st := 0#8
  key := Vector.replicate 16 false
  fb := Vector.replicate 32 0#64
  ir := 0#16
  mem := []
  fault := none
  font := defaultFontBytes
  draws := 0
  schedule := []
  boot := .awaitingLoad

end Sys2Proof.Machine
end

