-- ==== Sys2Proof/Machine/Memory.lean ====
section
/-! DEFINITION. MEM (20_memory.md R31 to R41): one byte-addressed array of 4096 bytes, held as the list of the cells
that differ from the reset contents, in one canonical form. -/

namespace Sys2Proof.Machine

/-- What an address MEM does not list reads as: the reset contents of R29, the font in 0x050 to 0x09F and 0 elsewhere. -/
def Memory.unlisted (a : Nat) : Byte :=
  if Config.fontBase ≤ a ∧ a < Config.fontBase + Config.fontSize then
    defaultFont.getD (a - Config.fontBase) 0#8
  else 0#8

/-- The canonical form: addresses strictly rising and inside the array, and no cell equal to what its address would
read as unlisted. -/
abbrev Memory.wf (m : Memory) : Prop :=
  m.Pairwise (fun c d => c.1 < d.1) ∧ ∀ c ∈ m, c.1 < Config.memSize ∧ c.2 ≠ Memory.unlisted c.1

/-- MEM[a] (R37). -/
def Memory.read : Memory → Nat → Byte
  | [], a => Memory.unlisted a
  | c :: m, a => if c.1 = a then c.2 else Memory.read m a

/-- The cells that say `a` holds `b`: none when that is what an unlisted `a` reads as. -/
def Memory.cell (a : Nat) (b : Byte) : Memory :=
  if b = Memory.unlisted a then [] else [(a, b)]

/-- `MEM[a] <- b` (R37): "A write changes only the addressed byte" (R41). Its callers check `a < 4096` first. -/
def Memory.write : Memory → Nat → Byte → Memory
  | [], a, b => Memory.cell a b
  | c :: m, a, b =>
    if a < c.1 then Memory.cell a b ++ c :: m
    else if a = c.1 then Memory.cell a b ++ m
    else c :: Memory.write m a b

/-- The bytes `bs` written one by one from address `a` up, in order (R35, R43). -/
def Memory.writeBytes : Memory → Nat → List Byte → Memory
  | m, _, [] => m
  | m, a, b :: bs => Memory.writeBytes (Memory.write m a b) (a + 1) bs

/-- The `n` bytes from address `a` up, each a separate one-byte read (R35). -/
def Memory.readBytes (m : Memory) (a n : Nat) : List Byte :=
  (List.range n).map fun k => Memory.read m (a + k)

/-- The word at `a`, big-endian: the byte at the lower address is the high byte (R34). -/
def Memory.readWord (m : Memory) (a : Nat) : Word :=
  concatBytes (Memory.read m a) (Memory.read m (a + 1))

/-- The lowest address outside MEM among the `n` addresses from `base` up, if there is one (R38, R100). Addresses are
naturals: the sum does not wrap. -/
def firstOutOfBounds (base n : Nat) : Option Nat :=
  ((List.range n).map fun k => base + k).find? fun a => decide (Config.memSize ≤ a)

end Sys2Proof.Machine
end

