-- ==== Sys2Proof/Machine/Ops.lean ====
section
/-! DEFINITION. The named operations over registers, the call stack, the input latch and the framebuffer, and taking a
fault (60_exceptions.md R114 to R119). -/

namespace Sys2Proof.Machine

/-! ### Registers and memory -/

/-- `V[r]` (R9). -/
def State.reg (s : State) (r : Reg) : Byte := s.v[r]

/-- `V[r] <- b` (R9); no register is hardwired (R11). -/
def State.setReg (s : State) (r : Reg) (b : Byte) : State := { s with v := s.v.set r b }

/-- `MemRead(a, 1)` for an address already checked (R37, R38). -/
def State.readByte (s : State) (a : Nat) : Byte := s.mem.read a

/-- The bytes `bs` stored from address `a` up, for addresses already checked (R37, R38). -/
def State.storeBytes (s : State) (a : Nat) (bs : List Byte) : State := { s with mem := s.mem.writeBytes a bs }

/-- V0 to Vx, in order (R11, R105). -/
def State.regsUpTo (s : State) (x : Reg) : List Byte := s.v.toList.take (x.val + 1)

/-- `for k = 0..x: V[k] <- MemRead(a + k, 1)` (R106), for addresses already checked. -/
def State.loadRegsFrom (s : State) (a : Nat) (x : Reg) : State :=
  { s with v := Vector.ofFn fun k => if k.val ≤ x.val then s.readByte (a + k.val) else s.v[k] }

/-! ### Program counter -/

/-- `PC <- a`. -/
def State.jump (s : State) (a : Word) : State := { s with pc := a }

/-- Skip when `c` holds: `PC <- (PC + 2) mod 65536` (41_control_flow.md). -/
def State.skipIf (s : State) (c : Bool) : State := if c then s.jump (s.pc + 2#16) else s

/-- Fetch's and advance's writes (R66, R67): `IR <- w; PC <- (A + 2) mod 65536`. -/
def State.advance (s : State) (w : Word) : State := { s with ir := w, pc := s.pc + 2#16 }

/-! ### Call stack (R20) -/

/-- Push: `STACK[SP] <- a; SP <- SP + 1`; none when SP = 16. -/
def State.push (s : State) (a : Word) : Option State :=
  if h : s.sp.val < 16 then
    some { s with stack := s.stack.set s.sp.val a, sp := ⟨s.sp.val + 1, by omega⟩ }
  else none

/-- Pop: `SP <- SP - 1; PC <- STACK[SP]`; none when SP = 0. The slot keeps its value (R21). -/
def State.popPc (s : State) : Option State :=
  if h : 0 < s.sp.val then
    some { s with sp := ⟨s.sp.val - 1, by omega⟩, pc := s.stack[s.sp.val - 1]'(by omega) }
  else none

/-! ### Input latch -/

/-- `KEY[k]` for a key value, none when it is above 15 (R86, R87). -/
def State.keyAt (s : State) (k : Byte) : Option Bool :=
  if h : k.toNat < 16 then some s.key[k.toNat] else none

/-- The least latched key, if any (R108). -/
def State.leastKey (s : State) : Option (Fin 16) := (List.finRange 16).find? fun k => s.key[k]

/-! ### Framebuffer -/

/-- Pixel (x, y), FB[y * 64 + x] (R25); false outside the framebuffer. -/
def Framebuffer.pixel (fb : Framebuffer) (x y : Nat) : Bool :=
  if h : y < 32 then fb[y].getLsbD x else false

/-- FB[y * 64 + x] toggled (R113), for x < 64 and y < 32. -/
def Framebuffer.toggle (fb : Framebuffer) (x y : Nat) : Framebuffer :=
  if h : y < 32 then fb.set y (fb[y] ^^^ BitVec.twoPow 64 x) else fb

/-- Pixel (x, y) of the core's framebuffer. -/
def State.pixel (s : State) (x y : Nat) : Bool := Framebuffer.pixel s.fb x y

/-- The framebuffer while a sprite is drawn, and whether a drawn pixel was on (the `hit` of R113). -/
structure Canvas where
  fb : Framebuffer
  hit : Bool
  deriving DecidableEq, Repr

/-- Toggle pixel (px, py) and note a collision (R113); a pixel outside the framebuffer is clipped (R111). -/
def Canvas.plot (cv : Canvas) (px py : Nat) : Canvas :=
  if px < Config.fbWidth ∧ py < Config.fbHeight then
    { fb := Framebuffer.toggle cv.fb px py, hit := cv.hit || Framebuffer.pixel cv.fb px py }
  else cv

/-- One sprite row: the set bits of `b`, most significant first, at columns `x0 + c` (R113). -/
def Canvas.drawRow (cv : Canvas) (b : Byte) (x0 py : Nat) : Canvas :=
  (List.range 8).foldl (fun cv c => if b.getLsbD (7 - c) then cv.plot (x0 + c) py else cv) cv

/-- The sprite's rows, top to bottom, from row `py` down (R113). -/
def Canvas.drawRows (cv : Canvas) : List Byte → Nat → Nat → Canvas
  | [], _, _ => cv
  | b :: bs, x0, py => Canvas.drawRows (cv.drawRow b x0 py) bs x0 (py + 1)

/-! ### Faults -/

/-- The cause codes of R114 (labels only). -/
def FaultCause.code : FaultCause → Nat
  | .decode => 1
  | .memoryBounds => 2
  | .stackOverflow => 3
  | .stackUnderflow => 4
  | .keyIndex => 5

/-- TAKING A FAULT, the `fault` of R70 and R118: with `s` the state at the start of the cycle, every piece of state is
as it was there (PC = A, IR unchanged) and FAULT holds the record. No handler is entered, nothing is pushed and no
mode changes. There is no return from a fault (R121): only Reset clears FAULT (`State.hostReset`). -/
def State.takeFault (s : State) (r : FaultRecord) : State := { s with fault := some r }

/-- `raise C(info)` inside a handler (R9, R10, R70): the record of R114, with A = PC - 2 (the cycle has advanced PC,
R14) and the word IR. A handler raises before its first write, and `endCycle` puts back the start of the cycle. -/
def State.raise (s : State) (c : FaultCause) (info : Nat) : State :=
  s.takeFault { cause := c, addr := s.pc - 2#16, word := some s.ir, info := info }

/-- The end of a cycle that started in `s0` (R70): a fault its handler raised is taken from the start state (R118). -/
def endCycle (s0 : State) : Result → Result
  | .next t =>
    match t.fault with
    | some r => .next (s0.takeFault r)
    | none => .next t
  | .fault f => .fault f
  | .refused r => .refused r

/-! ### Checks a handler makes before it writes (R10) -/

/-- Raise MemoryBoundsFault with the lowest address outside MEM among the `n` from I up (R38, R100), else go on with `t`. -/
def State.checked (s : State) (n : Nat) (t : State) : Result :=
  match firstOutOfBounds s.i.toNat n with
  | some a => .next (s.raise .memoryBounds a)
  | none => .next t

/-- Raise KeyIndexFault when V[x] > 15, else skip when KEY[V[x]] is `b` (R86, R87). -/
def State.skipIfKey (s : State) (x : Reg) (b : Bool) : Result :=
  match s.keyAt (s.reg x) with
  | some k => .next (s.skipIf (k == b))
  | none => .next (s.raise .keyIndex (s.reg x).toNat)

/-- Go on with `t`, or raise `c` when an operation on the call stack answers none (R20); the information is SP (R114). -/
def State.orRaise (s : State) (c : FaultCause) (t : Option State) : Result :=
  match t with
  | some t => .next t
  | none => .next (s.raise c s.sp.val)

end Sys2Proof.Machine
end

