-- ==== Sys2Proof/Machine/Operands.lean ====
section
/-! DEFINITION. The operand forms (30_encoding.md R51, R52; 43_index_memory.md R100): what a field of an instruction
stands for. A register field is read with `State.reg`; kk is used as it is. -/

namespace Sys2Proof.Machine

/-- `zext_16(nnn)`: a direct address (R52). -/
def directAddress (nnn : Addr12) : Word := nnn.setWidth 16

/-- `zext_16(V[x])` (R8): a register added to PC or I. -/
def zeroExtend (b : Byte) : Word := b.setWidth 16

/-- `zext_16(V[0]) + zext_16(nnn)` mod 65536 (R85): always V0, whatever bits 11..8 hold. -/
def offsetAddress (s : State) (nnn : Addr12) : Word := zeroExtend (s.reg 0) + directAddress nnn

/-- `ea_k = zext(I) + k` in the naturals (R38, R100). -/
def effectiveAddress (s : State) (k : Nat) : Nat := s.i.toNat + k

/-- The address of the glyph for a value: FONT_BASE + 5 × its low nibble (R103). -/
def glyphAddress (b : Byte) : Word := BitVec.ofNat 16 (Config.fontBase + Config.glyphBytes * (b &&& 0xF#8).toNat)

/-- Hundreds, tens and ones of a byte (R104). -/
def decimalDigits (b : Byte) : List Byte := [b / 100#8, b / 10#8 % 10#8, b % 10#8]

/-- The sprite's origin column, `V[x] mod 64` (R113). -/
def originColumn (s : State) (x : Reg) : Nat := (s.reg x).toNat % Config.fbWidth

/-- The sprite's origin row, `V[y] mod 32` (R113). -/
def originRow (s : State) (y : Reg) : Nat := (s.reg y).toNat % Config.fbHeight

/-- The sprite's `n` bytes, at I and up (R113). -/
def spriteRows (s : State) (n : Nat) : List Byte := s.mem.readBytes (effectiveAddress s 0) n

end Sys2Proof.Machine
end

