-- ==== Sys2Proof/Machine/Flags.lean ====
section
/-! DEFINITION. The flag of every instruction that writes one (10_state.md R13), and the one way a result and its flag
are written: the flag last, so that it wins when the destination is VF (R12). -/

namespace Sys2Proof.Machine

/-- A condition as a flag value: 1 or 0. -/
def flagOf (c : Bool) : Byte := if c then 1#8 else 0#8

/-- ADD Vx, Vy: 1 if the unsigned sum exceeds 255 (R94). -/
def carryFlag (a b : Byte) : Byte := flagOf (decide (a.toNat + b.toNat > 255))

/-- SUB and SUBN: 1 if the minuend is strictly greater than the subtrahend (R95, R97). -/
def notBorrowFlag (a b : Byte) : Byte := flagOf (decide (a.toNat > b.toNat))

/-- SHR: the bit shifted out, `a & 1` (R96). -/
def lowBitFlag (a : Byte) : Byte := a &&& 1#8

/-- SHL: the bit shifted out, `(a & 0x80) >> 7` (R98). -/
def highBitFlag (a : Byte) : Byte := (a &&& 0x80#8) >>> 7

/-- DRW: 1 if a drawn pixel was on (R113). -/
def collisionFlag (hit : Bool) : Byte := flagOf hit

/-- `V[x] <- r; V[0xF] <- f`, in this order (R12). -/
def State.setRegFlag (s : State) (x : Reg) (r f : Byte) : State := (s.setReg x r).setReg vF f

end Sys2Proof.Machine
end

