-- ==== Sys2Proof/Machine/Alu.lean ====
section
/-! DEFINITION. Register loads, arithmetic and logic (42_alu.md R88 to R99). Every result is reduced modulo 256 and no
instruction here faults. -/

namespace Sys2Proof.Machine

/-- R88: `V[x] <- kk`. -/
def execLdByte (x : Reg) (kk : Byte) (s : State) : Result := .next (s.setReg x kk)

/-- R89: `V[x] <- (V[x] + kk) mod 256`, no flag. -/
def execAddByte (x : Reg) (kk : Byte) (s : State) : Result := .next (s.setReg x (s.reg x + kk))

/-- R90: `V[x] <- V[y]`. -/
def execLdReg (x y : Reg) (s : State) : Result := .next (s.setReg x (s.reg y))

/-- R91: `V[x] <- V[x] | V[y]`, no flag. -/
def execOrReg (x y : Reg) (s : State) : Result := .next (s.setReg x (s.reg x ||| s.reg y))

/-- R92: `V[x] <- V[x] & V[y]`, no flag. -/
def execAndReg (x y : Reg) (s : State) : Result := .next (s.setReg x (s.reg x &&& s.reg y))

/-- R93: `V[x] <- V[x] ^ V[y]`, no flag. -/
def execXorReg (x y : Reg) (s : State) : Result := .next (s.setReg x (s.reg x ^^^ s.reg y))

/-- R94: the sum mod 256; VF is the carry. -/
def execAddReg (x y : Reg) (s : State) : Result :=
  .next (s.setRegFlag x (s.reg x + s.reg y) (carryFlag (s.reg x) (s.reg y)))

/-- R95: `V[x] - V[y]` mod 256; VF is `V[x] > V[y]`. -/
def execSubReg (x y : Reg) (s : State) : Result :=
  .next (s.setRegFlag x (s.reg x - s.reg y) (notBorrowFlag (s.reg x) (s.reg y)))

/-- R96: `V[x] >> 1`; VF is the old bit 0. The `y` field is decoded and not used (R56). -/
def execShr (x _y : Reg) (s : State) : Result :=
  .next (s.setRegFlag x (s.reg x >>> 1) (lowBitFlag (s.reg x)))

/-- R97: `V[y] - V[x]` mod 256; VF is `V[y] > V[x]`. -/
def execSubnReg (x y : Reg) (s : State) : Result :=
  .next (s.setRegFlag x (s.reg y - s.reg x) (notBorrowFlag (s.reg y) (s.reg x)))

/-- R98: `V[x] << 1` mod 256; VF is the old bit 7. The `y` field is decoded and not used (R56). -/
def execShl (x _y : Reg) (s : State) : Result :=
  .next (s.setRegFlag x (s.reg x <<< 1) (highBitFlag (s.reg x)))

/-- R99: `V[x] <- rnd & kk`, with a fresh draw (R6, R73; log entry 1). -/
def execRnd (x : Reg) (kk : Byte) (s : State) : Result :=
  .next { s.setReg x (Config.randomDraw s.draws &&& kk) with draws := s.draws + 1 }

end Sys2Proof.Machine
end

