-- ==== Sys2Proof/Machine/ControlFlow.lean ====
section
/-! DEFINITION. Control transfer and skips (41_control_flow.md R78 to R87). On entry PC = A + 2. -/

namespace Sys2Proof.Machine

/-- R78: pop the return address into PC; StackUnderflowFault(0) when SP = 0. -/
def execRet (s : State) : Result := s.orRaise .stackUnderflow s.popPc

/-- R79: `PC <- zext_16(nnn)`. -/
def execJp (nnn : Addr12) (s : State) : Result := .next (s.jump (directAddress nnn))

/-- R80: push PC (A + 2, 90_conflicts.md C2), then `PC <- zext_16(nnn)`; StackOverflowFault(16) when SP = 16. -/
def execCall (nnn : Addr12) (s : State) : Result :=
  s.orRaise .stackOverflow ((s.push s.pc).map fun t => t.jump (directAddress nnn))

/-- R81: skip if `V[x] = kk`. -/
def execSeByte (x : Reg) (kk : Byte) (s : State) : Result := .next (s.skipIf (s.reg x == kk))

/-- R82: skip if `V[x] ≠ kk`. -/
def execSneByte (x : Reg) (kk : Byte) (s : State) : Result := .next (s.skipIf (s.reg x != kk))

/-- R83: skip if `V[x] = V[y]`. -/
def execSeReg (x y : Reg) (s : State) : Result := .next (s.skipIf (s.reg x == s.reg y))

/-- R84: skip if `V[x] ≠ V[y]`. -/
def execSneReg (x y : Reg) (s : State) : Result := .next (s.skipIf (s.reg x != s.reg y))

/-- R85: `PC <- (zext_16(V[0]) + zext_16(nnn)) mod 65536`. -/
def execJpV0 (nnn : Addr12) (s : State) : Result := .next (s.jump (offsetAddress s nnn))

/-- R86: skip if `KEY[V[x]]`; KeyIndexFault(V[x]) when V[x] > 15. -/
def execSkp (x : Reg) (s : State) : Result := s.skipIfKey x true

/-- R87: skip if not `KEY[V[x]]`; KeyIndexFault(V[x]) when V[x] > 15. -/
def execSknp (x : Reg) (s : State) : Result := s.skipIfKey x false

end Sys2Proof.Machine
end

