-- ==== Sys2Proof/Machine/Graphics.lean ====
section
/-! DEFINITION. Graphics (45_graphics.md R111 to R113). -/

namespace Sys2Proof.Machine

/-- R112: every pixel off. -/
def execCls (s : State) : Result := .next { s with fb := Vector.replicate 32 0#64 }

/-- The framebuffer and `hit` after the sprite is drawn (R113). -/
def State.drawSprite (s : State) (x y : Reg) (n : Nat) : Canvas :=
  Canvas.drawRows { fb := s.fb, hit := false } (spriteRows s n) (originColumn s x) (originRow s y)

/-- R113: exclusive-OR the sprite into FB, then `V[0xF] <- hit`; MemoryBoundsFault before anything is written. -/
def execDrw (x y : Reg) (n : Nat) (s : State) : Result :=
  s.checked n
    (({ s with fb := (s.drawSprite x y n).fb } : State).setReg vF (collisionFlag (s.drawSprite x y n).hit))

end Sys2Proof.Machine
end

