-- ==== Sys2Proof/Machine/IndexMemory.lean ====
section
/-! DEFINITION. The index register and memory transfers (43_index_memory.md R100 to R106). The block forms check every
address before the first write and leave I unchanged. -/

namespace Sys2Proof.Machine

/-- R101: `I <- zext_16(nnn)`. -/
def execLdI (nnn : Addr12) (s : State) : Result := .next { s with i := directAddress nnn }

/-- R102: `I <- (I + zext_16(V[x])) mod 65536`, no flag. -/
def execAddI (x : Reg) (s : State) : Result := .next { s with i := s.i + zeroExtend (s.reg x) }

/-- R103: `I <- 0x050 + 5 * (V[x] & 0xF)`. -/
def execLdF (x : Reg) (s : State) : Result := .next { s with i := glyphAddress (s.reg x) }

/-- R104: hundreds, tens and ones of V[x] to MEM[I], MEM[I + 1], MEM[I + 2]. -/
def execLdB (x : Reg) (s : State) : Result :=
  s.checked 3 (s.storeBytes (effectiveAddress s 0) (decimalDigits (s.reg x)))

/-- R105: `for k = 0..x: MEM[I + k] <- V[k]`. -/
def execStoreRegs (x : Reg) (s : State) : Result :=
  s.checked (x.val + 1) (s.storeBytes (effectiveAddress s 0) (s.regsUpTo x))

/-- R106: `for k = 0..x: V[k] <- MEM[I + k]`. -/
def execLoadRegs (x : Reg) (s : State) : Result :=
  s.checked (x.val + 1) (s.loadRegsFrom (effectiveAddress s 0) x)

end Sys2Proof.Machine
end

