-- ==== Sys2Proof/Machine/TimersInput.lean ====
section
/-! DEFINITION. Timers and the key wait (44_timers_input.md R107 to R110). -/

namespace Sys2Proof.Machine

/-- R107: `V[x] <- DT`. -/
def execLdVxDt (x : Reg) (s : State) : Result := .next (s.setReg x s.dt)

/-- R108: the least latched key to V[x]; with no key latched `PC <- (PC - 2) mod 65536`, so that the instruction runs
again. -/
def execLdVxK (x : Reg) (s : State) : Result :=
  match s.leastKey with
  | some k => .next (s.setReg x (BitVec.ofNat 8 k.val))
  | none => .next (s.jump (s.pc - 2#16))

/-- R109: `DT <- V[x]`. -/
def execLdDtVx (x : Reg) (s : State) : Result := .next { s with dt := s.reg x }

/-- R110: `ST <- V[x]`. -/
def execLdStVx (x : Reg) (s : State) : Result := .next { s with st := s.reg x }

end Sys2Proof.Machine
end

