-- ==== Sys2Proof/Machine/Cycle.lean ====
section
/-! DEFINITION. The cycle (40_cycle.md R64 to R71) and the host's actions on the core (R72 to R77;
70_reset_and_hazards.md R128 to R133). -/

namespace Sys2Proof.Machine

/-! ### The cycle -/

/-- What the fetch at PC finds (R39, R66). -/
inductive Fetched where
  /-- The word at PC and PC + 1. -/
  | word (w : Word)
  /-- The lowest of the two addresses that is outside MEM. -/
  | outside (a : Nat)
  deriving DecidableEq, Repr

/-- The instruction fetch: the two bytes at PC and PC + 1, computed in the naturals (R39). -/
def State.fetch (s : State) : Fetched :=
  if Config.memSize ≤ s.pc.toNat then .outside s.pc.toNat
  else if Config.memSize ≤ s.pc.toNat + 1 then .outside Config.memSize
  else .word (s.mem.readWord s.pc.toNat)

/-- Decode, advance and execute a fetched word (R67 to R70). -/
def runWord (s : State) (w : Word) : Result :=
  match decodeWord w with
  | .ok i => endCycle s (exec i (s.advance w))
  | .error _ => .next (s.takeFault { cause := .decode, addr := s.pc, word := some w, info := w.toNat })

/-- `Cycle(rnd)` (R70): one fetch-decode-execute; on a faulted core, no change (R65). -/
def cycle (s : State) : Result :=
  match s.fault with
  | some _ => .next s
  | none =>
    match s.fetch with
    | .word w => runWord s w
    | .outside a => .next (s.takeFault { cause := .memoryBounds, addr := s.pc, word := none, info := a })

/-! ### The host's actions -/

/-- SetKey(k, b) (R74). -/
def State.setKey (s : State) (k : Fin 16) (b : Bool) : State := { s with key := s.key.set k b }

/-- One step toward zero: `(t > 0) ? t - 1 : 0` (R75). -/
def decayed (t : Byte) : Byte := if t = 0#8 then 0#8 else t - 1#8

/-- TimerDecay (R75). -/
def State.timerDecay (s : State) : State := { s with dt := decayed s.dt, st := decayed s.st }

/-- What the host's Read action returns (R76): the framebuffer, the timers and the fault. -/
structure Observation where
  fb : Framebuffer
  dt : Byte
  st : Byte
  fault : Option FaultRecord
  deriving DecidableEq, Repr

/-- Read (R76): it returns the state the host observes and changes nothing. -/
def State.observe (s : State) : Observation := { fb := s.fb, dt := s.dt, st := s.st, fault := s.fault }

/-- The reset state with a given FONT (R5, R29): the parameter's bytes at 0x050 and up. `State.reset` is this state for
the default FONT (`resetWith_defaultFont`). -/
def State.resetWith (font : Vector Byte 80) : State :=
  { State.reset.storeBytes Config.fontBase font.toList with font := font }

/-- Reset (R128, R130): every piece of the core's state afresh, on a faulted core too; it is the only action that clears
FAULT. The boot order starts again (R133). FONT is the machine's, and two of the model's own fields go on: the host's
coming actions, and the draws, so that later draws are fresh (R6). -/
def State.hostReset (s : State) : State := { State.resetWith s.font with draws := s.draws, schedule := s.schedule }

/-- A state just produced by Reset, where R77 lets Load be performed: the core's state is that of R29, and no Load has
been performed since. -/
def State.justReset (s : State) : Bool := decide (s = s.hostReset)

/-- An image Load accepts: not empty, and at most 3584 bytes (R132). -/
def imageLoads (image : List Byte) : Bool := decide (0 < image.length ∧ image.length ≤ Config.maxImage)

/-- A successful Load (R131): `MEM[0x200 + i] <- image[i]`, and Cycles may follow (R133). -/
def State.loadImage (s : State) (bytes : List Byte) : State :=
  { s.storeBytes Config.progOrigin bytes with boot := .loaded }

/-- A failed Load (R132): nothing of the core is written; the loader reports the failure to the host. -/
def State.failLoad (s : State) : State := { s with boot := .loadFailed }

/-- Load(image) (R131); it fails, and writes nothing, for an image that R132 excludes; refused where it is not to be
performed (R77). -/
def load (image : Option (List Byte)) (s : State) : Result :=
  if s.justReset then
    match image with
    | some bytes => if imageLoads bytes then .next (s.loadImage bytes) else .next s.failLoad
    | none => .next s.failLoad
  else .refused .loadOutOfOrder

/-- The host requests a Cycle (R73), which may be performed only after a Reset and one successful Load (R77, R132,
R133). -/
def requestCycle (s : State) : Result :=
  match s.boot with
  | .loaded => cycle s
  | .awaitingLoad | .loadFailed => .refused .noProgramLoaded

/-- An action of the core's interface, as one transition (R72). -/
def perform (a : HostAction) (s : State) : Result :=
  match a with
  | .cycle => requestCycle s
  | .setKey k b => .next (s.setKey k b)
  | .timerDecay => .next s.timerDecay
  | .read => .next s
  | .reset => .next s.hostReset
  | .load image => load image s

/-- The host's next action: the first of its schedule, or a Cycle when none is left (log entry 2). -/
def State.nextAction (s : State) : HostAction := s.schedule.headD .cycle

/-- The state with its next action taken off the schedule. -/
def State.popAction (s : State) : State := { s with schedule := s.schedule.tail }

/-! ### Placing an instruction -/

/-- Where the next fetch reads, when both its bytes are in MEM, and PROG_ORIGIN otherwise. -/
def State.placeAddress (s : State) : Word :=
  if s.pc.toNat + 1 < Config.memSize then s.pc else BitVec.ofNat 16 Config.progOrigin

/-- `s` made ready to run the word `w` next: the word stored where PC points, no fault, the program counted as
loaded, and a Cycle as the next action. -/
def State.placeWord (s : State) (w : Word) : State :=
  { s with
    pc := s.placeAddress
    mem := s.mem.writeBytes s.placeAddress.toNat (wordBytes w)
    fault := none
    schedule := []
    boot := .loaded }

end Sys2Proof.Machine
end

