-- ==== Sys2Proof/Machine/Step.lean ====
section
/-! DEFINITION. One step of the machine: one action of the core's interface (R72), a Cycle unless the host's schedule
says otherwise. -/

namespace Sys2Proof.Machine

/-- One step: the host's next action (log entry 2), which is one Cycle (R70) when the schedule is empty. -/
def step (s : State) : Host.Outcome State Fault Refusal := perform s.nextAction s.popAction

/-- `s` with a table word stored where `step` fetches its next instruction, ready to run it (log entry 6). -/
def State.withFetchWord (s : State) (nbits w : Nat) : State := s.placeWord (tableWord nbits w)

end Sys2Proof.Machine
end

