-- ==== Sys2Proof/Safety.lean ====
section
/-! DEFINITION. The terms the statements use: what stays the same, what a cycle's fault is, where PC goes, which words are
undefined, the invariants, and what a safe run is. Each is written from the spec's tables, apart from the meanings. -/

namespace Sys2Proof.Machine

/-! ### Frames -/

/-- Every register but those in `ds` reads as before. -/
def KeepsRegsExcept (ds : List Reg) (s t : State) : Prop := ∀ r : Reg, r ∉ ds → t.reg r = s.reg r

/-- Every byte of MEM reads as before. -/
def KeepsMemory (s t : State) : Prop := ∀ a : Nat, t.readByte a = s.readByte a

/-- Every byte of MEM outside the `n` bytes from `a` up reads as before. -/
def KeepsMemoryOutside (a n : Nat) (s t : State) : Prop :=
  ∀ b : Nat, (b < a ∨ a + n ≤ b) → t.readByte b = s.readByte b

/-- Only the register file differs, MEM reads as before, and in the register file only the registers `ds`. -/
def OnlyRegsChange (ds : List Reg) (s t : State) : Prop :=
  KeepsRegsExcept ds s t ∧ KeepsMemory s t ∧ t = { s with v := t.v }

/-- Only PC differs: every register and every byte of MEM reads as before, and every other field is the same. -/
def OnlyPcChanges (s t : State) : Prop := KeepsRegsExcept [] s t ∧ KeepsMemory s t ∧ t = { s with pc := t.pc }

/-- The state in which a handler's fault is recorded, from the state the handler ran in (PC = A + 2): nothing else is
written (R10), and A is PC - 2 (R14). -/
def RaisedIn (s : State) (c : FaultCause) (info : Nat) : State :=
  { s with fault := some { cause := c, addr := s.pc - 2#16, word := some s.ir, info := info } }

/-! ### Undefined words (R60) -/

/-- "The undefined words are exactly" those of R60. -/
def UndefinedWord (w : Word) : Prop :=
  (opField w = 0x0 ∧ w ≠ 0x00E0 ∧ w ≠ 0x00EE) ∨
  (opField w = 0x5 ∧ nBits w ≠ 0) ∨
  (opField w = 0x8 ∧ nBits w ∈ [0x8, 0x9, 0xA, 0xB, 0xC, 0xD, 0xF]) ∨
  (opField w = 0x9 ∧ nBits w ≠ 0) ∨
  (opField w = 0xE ∧ kkField w ∉ [0x9E, 0xA1]) ∨
  (opField w = 0xF ∧ kkField w ∉ [0x07, 0x0A, 0x15, 0x18, 0x1E, 0x29, 0x33, 0x55, 0x65])

/-! ### The fault of a cycle (R114, R119) -/

/-- The MemoryBoundsFault of an access to `n` bytes from I up: none when they are in MEM or `n` is 0, and otherwise the
lowest address outside (R100). -/
def blockFault (s : State) (n : Nat) : Option (FaultCause × Nat) :=
  if n = 0 ∨ s.i.toNat + n ≤ 4096 then none
  else if 4096 ≤ s.i.toNat then some (.memoryBounds, s.i.toNat)
  else some (.memoryBounds, 4096)

/-- KeyIndexFault when V[x] > 15 (R114). -/
def keyFault (s : State) (x : Reg) : Option (FaultCause × Nat) :=
  if 15 < (s.reg x).toNat then some (.keyIndex, (s.reg x).toNat) else none

/-- The fault an instruction's handler raises, and its information: the "raised by" column of R114. -/
def handlerFault (s : State) : Instr → Option (FaultCause × Nat)
  | .call _ => if s.sp.val = 16 then some (.stackOverflow, 16) else none
  | .ret => if s.sp.val = 0 then some (.stackUnderflow, 0) else none
  | .skp x => keyFault s x
  | .sknp x => keyFault s x
  | .drw _ _ n => blockFault s n
  | .ldB _ => blockFault s 3
  | .storeRegs x => blockFault s (x.val + 1)
  | .loadRegs x => blockFault s (x.val + 1)
  | .cls | .jp _ | .seByte _ _ | .sneByte _ _ | .seReg _ _ | .ldByte _ _ | .addByte _ _ | .ldReg _ _ | .orReg _ _
  | .andReg _ _ | .xorReg _ _ | .addReg _ _ | .subReg _ _ | .shr _ _ | .subnReg _ _ | .shl _ _ | .sneReg _ _ | .ldI _
  | .jpV0 _ | .rnd _ _ | .ldVxDt _ | .ldVxK _ | .ldDtVx _ | .ldStVx _ | .addI _ | .ldF _ => none

/-- The word at PC, for PC and PC + 1 inside MEM (R34). -/
def wordAtPc (s : State) : Word := concatBytes (s.readByte s.pc.toNat) (s.readByte (s.pc.toNat + 1))

/-- The fault a cycle from `s` raises: fetch out of bounds, then DecodeFault, then the handler's own check (R119), with
what the record holds (R114). -/
def cycleFault (s : State) : Option FaultRecord :=
  if 4096 ≤ s.pc.toNat then some { cause := .memoryBounds, addr := s.pc, word := none, info := s.pc.toNat }
  else if s.pc.toNat = 4095 then some { cause := .memoryBounds, addr := s.pc, word := none, info := 4096 }
  else
    match decodeWord (wordAtPc s) with
    | .error _ => some { cause := .decode, addr := s.pc, word := some (wordAtPc s), info := (wordAtPc s).toNat }
    | .ok i =>
      match handlerFault s i with
      | some (c, info) => some { cause := c, addr := s.pc, word := some (wordAtPc s), info := info }
      | none => none

/-! ### PC after an instruction (R15) -/

/-- A + 4 when the condition holds, else A + 2. -/
def pcAfterSkip (a : Word) (c : Bool) : Word := if c then a + 4#16 else a + 2#16

/-- "How each instruction leaves PC" (R15), from the state at the start of the cycle, where PC = A, for an instruction
that does not fault. -/
def pcAfter (s : State) : Instr → Word
  | .jp nnn => nnn.setWidth 16
  | .jpV0 nnn => (s.reg 0).setWidth 16 + nnn.setWidth 16
  | .call nnn => nnn.setWidth 16
  | .ret => s.stack[s.sp.val - 1]'(by omega)
  | .seByte x kk => pcAfterSkip s.pc (s.reg x == kk)
  | .sneByte x kk => pcAfterSkip s.pc (s.reg x != kk)
  | .seReg x y => pcAfterSkip s.pc (s.reg x == s.reg y)
  | .sneReg x y => pcAfterSkip s.pc (s.reg x != s.reg y)
  | .skp x => pcAfterSkip s.pc (decide (∃ k : Fin 16, k.val = (s.reg x).toNat ∧ s.key[k] = true))
  | .sknp x => pcAfterSkip s.pc (decide (∃ k : Fin 16, k.val = (s.reg x).toNat ∧ s.key[k] = false))
  | .ldVxK _ => if ∃ k : Fin 16, s.key[k] = true then s.pc + 2#16 else s.pc
  | .cls | .ldByte _ _ | .addByte _ _ | .ldReg _ _ | .orReg _ _ | .andReg _ _ | .xorReg _ _ | .addReg _ _
  | .subReg _ _ | .shr _ _ | .subnReg _ _ | .shl _ _ | .ldI _ | .rnd _ _ | .drw _ _ _ | .ldVxDt _ | .ldDtVx _
  | .ldStVx _ | .addI _ | .ldF _ | .ldB _ | .storeRegs _ | .loadRegs _ => s.pc + 2#16

/-! ### Sprites (R113) -/

/-- The bit of an `n`-row sprite at I that falls on pixel (px, py), its origin at (V[x] mod 64, V[y] mod 32). -/
def spriteCovers (s : State) (x y : Reg) (n px py : Nat) : Bool :=
  let x0 := (s.reg x).toNat % 64
  let y0 := (s.reg y).toNat % 32
  decide (x0 ≤ px ∧ px < x0 + 8 ∧ y0 ≤ py ∧ py < y0 + n) &&
    (s.readByte (s.i.toNat + (py - y0))).getLsbD (7 - (px - x0))

/-! ### Which registers an instruction names as its destination (R11, R13) -/

/-- The registers an instruction writes as a result (not as a flag). -/
def resultRegs : Instr → List Reg
  | .ldByte x _ | .addByte x _ | .ldReg x _ | .orReg x _ | .andReg x _ | .xorReg x _ | .addReg x _ | .subReg x _
  | .shr x _ | .subnReg x _ | .shl x _ | .rnd x _ | .ldVxDt x | .ldVxK x => [x]
  | .loadRegs x => (List.finRange 16).filter fun k => k.val ≤ x.val
  | .cls | .ret | .jp _ | .call _ | .seByte _ _ | .sneByte _ _ | .seReg _ _ | .sneReg _ _ | .ldI _ | .jpV0 _
  | .drw _ _ _ | .skp _ | .sknp _ | .ldDtVx _ | .ldStVx _ | .addI _ | .ldF _ | .ldB _ | .storeRegs _ => []

/-- The instructions that write VF as a flag: the table of R13. -/
def writesFlag : Instr → Bool
  | .addReg _ _ | .subReg _ _ | .shr _ _ | .subnReg _ _ | .shl _ _ | .drw _ _ _ => true
  | .cls | .ret | .jp _ | .call _ | .seByte _ _ | .sneByte _ _ | .seReg _ _ | .ldByte _ _ | .addByte _ _ | .ldReg _ _
  | .orReg _ _ | .andReg _ _ | .xorReg _ _ | .sneReg _ _ | .ldI _ | .jpV0 _ | .rnd _ _ | .skp _ | .sknp _ | .ldVxDt _
  | .ldVxK _ | .ldDtVx _ | .ldStVx _ | .addI _ | .ldF _ | .ldB _ | .storeRegs _ | .loadRegs _ => false

/-- How many bytes an instruction writes to MEM, from I up: the "writes" column of R40. -/
def bytesWritten : Instr → Nat
  | .ldB _ => 3
  | .storeRegs x => x.val + 1
  | .cls | .ret | .jp _ | .call _ | .seByte _ _ | .sneByte _ _ | .seReg _ _ | .ldByte _ _ | .addByte _ _ | .ldReg _ _
  | .orReg _ _ | .andReg _ _ | .xorReg _ _ | .addReg _ _ | .subReg _ _ | .shr _ _ | .subnReg _ _ | .shl _ _
  | .sneReg _ _ | .ldI _ | .jpV0 _ | .rnd _ _ | .drw _ _ _ | .skp _ | .sknp _ | .ldVxDt _ | .ldVxK _ | .ldDtVx _
  | .ldStVx _ | .addI _ | .ldF _ | .loadRegs _ => 0

/-! ### Invariants and safe runs -/

/-- The next step is a Cycle, and one that may be performed: a Load has succeeded since the last Reset (R133). -/
abbrev State.runsCycle (s : State) : Prop := s.nextAction = .cycle ∧ s.boot = .loaded

/-- The memory keeps its canonical form. -/
abbrev State.wf (s : State) : Prop := s.mem.wf

/-- A recorded fault is the fault of the instruction at PC (R27, R118). -/
def State.faultTrue (s : State) : Prop := s.fault = none ∨ s.fault = cycleFault s

/-- Until a Load succeeds the core has executed nothing: it is as Reset leaves it, but for the latch, which the host may
have set, and the model's own fields (R77, R133). -/
def State.asResetUntilLoaded (s : State) : Prop :=
  s.boot ≠ .loaded →
    s = { State.resetWith s.font with key := s.key, draws := s.draws, schedule := s.schedule, boot := s.boot }

/-- A run of `k` steps is safe when it records no fault. -/
def SafeRun : Nat → State → Prop
  | 0, s => s.fault = none
  | k + 1, s => s.fault = none ∧ ∀ t, step s = .next t → SafeRun k t

end Sys2Proof.Machine
end

