-- ==== Sys2Proof/Certificates/Slice0/Obligations.lean ====
section
/-! DEFINITION. The statements about the model, from the numbered rules of spec/. Statements about `exec` speak of the
state a handler runs in, where PC = A + 2 and IR is the instruction's word (R14, R67); statements about `step` speak of
whole cycles. -/

open Sys2Proof Sys2Proof.Machine

/-! ### Encoding and decoding -/

/-- Every well-formed instruction is what its encoding decodes to, with every operand; bytes after it are left over.
The bit patterns are R54's, most of them from general knowledge (log entry 7). -/
def Obligations.DecodeOfEncodeIsTheInstruction : Prop :=
  ∀ i : Instr, i.wf = true →
    decodeWord (encode i) = .ok i ∧ ∀ rest : List Byte, decodeBytes (encodeBytes i ++ rest) = .ok (i, rest)

/-- Every word that decodes is the encoding of the well-formed instruction it decodes to: no bit is dropped. The bit
patterns are R54's, most of them from general knowledge (log entry 7). -/
def Obligations.EncodeOfDecodeIsTheWord : Prop :=
  ∀ (w : Word) (i : Instr), decodeWord w = .ok i → i.wf = true ∧ encode i = w

/-- R54: "A word decodes to a row when `(IR & mask) = match`". The rows are most of them from general knowledge (log
entry 7). -/
def Obligations.DecodeFollowsTheOpcodeMap : Prop :=
  (∀ (w : Word) (i : Instr), decodeWord w = .ok i → i.row ∈ opcodeMap ∧ rowMatches i.row w = true) ∧
  (∀ (w : Word) (r : Word × Word), r ∈ opcodeMap → rowMatches r w = true →
    ∃ i : Instr, decodeWord w = .ok i ∧ i.row = r)

/-- R61: the rows are disjoint, and decode is total: the row's instruction, or the rejection of the word. The spec
marks R61 as its own inference from R54, whose rows are most of them from general knowledge (log entry 7). -/
def Obligations.OpcodeRowsAreDisjointAndDecodeTotal : Prop :=
  opcodeMap.Pairwise (fun r q => ∀ w : Word, ¬(rowMatches r w = true ∧ rowMatches q w = true)) ∧
  ∀ w : Word,
    (∃ (i : Instr) (r : Word × Word), decodeWord w = .ok i ∧ i.row = r ∧ r ∈ opcodeMap ∧ rowMatches r w = true) ∨
    (decodeWord w = .error (.unrecognized w) ∧ ∀ r ∈ opcodeMap, rowMatches r w = false)

/-- Decode rejects exactly the words R60 lists as undefined. The list is the spec's own inference from R54 to R59 and
its decisions D3 and D4 (log entries 7 and 9). -/
def Obligations.DecodeRejectsExactlyTheUndefinedWords : Prop :=
  ∀ w : Word, decodeWord w = .error (.unrecognized w) ↔ UndefinedWord w

/-- Words written out from the encodings of R54, one or more of each family (a family is a top nibble, 0 to F), and what
they stand for. Most of the patterns are general knowledge (log entry 7). -/
def Obligations.WrittenOutWordsDecode : Prop :=
  decodeWord 0x00E0#16 = .ok .cls ∧ decodeWord 0x00EE#16 = .ok .ret ∧
  decodeWord 0x1234#16 = .ok (.jp 0x234#12) ∧ decodeWord 0x2300#16 = .ok (.call 0x300#12) ∧
  decodeWord 0x3342#16 = .ok (.seByte 3 0x42#8) ∧ decodeWord 0x4342#16 = .ok (.sneByte 3 0x42#8) ∧
  decodeWord 0x5120#16 = .ok (.seReg 1 2) ∧ decodeWord 0x600A#16 = .ok (.ldByte 0 10#8) ∧
  decodeWord 0x7203#16 = .ok (.addByte 2 3#8) ∧ decodeWord 0x8014#16 = .ok (.addReg 0 1) ∧
  decodeWord 0x9120#16 = .ok (.sneReg 1 2) ∧ decodeWord 0xA2F0#16 = .ok (.ldI 0x2F0#12) ∧
  decodeWord 0xB210#16 = .ok (.jpV0 0x210#12) ∧ decodeWord 0xC30F#16 = .ok (.rnd 3 0x0F#8) ∧
  decodeWord 0xDAB5#16 = .ok (.drw 10 11 5) ∧ decodeWord 0xE59E#16 = .ok (.skp 5) ∧
  decodeWord 0xF20A#16 = .ok (.ldVxK 2) ∧ decodeWord 0xF133#16 = .ok (.ldB 1) ∧
  decodeWord 0xF255#16 = .ok (.storeRegs 2)

/-! ### The cycle -/

/-- A cycle fetches the word at PC, sets IR to it and PC to A + 2, and runs the instruction it decodes to (R66, R67);
what the handler leaves is the next state, but for a handler that faults, whose cycle leaves the state at its start
with FAULT set (R118). The schedule is the model's own (log entry 2). That a fault restores the start of the cycle is
the spec's own decision D7 (log entry 3). -/
def Obligations.StepRunsTheDecodedInstruction : Prop :=
  ∀ (s : State) (i : Instr), s.runsCycle → s.fault = none → s.pc.toNat + 1 < 4096 →
    decodeWord (concatBytes (s.readByte s.pc.toNat) (s.readByte (s.pc.toNat + 1))) = .ok i →
    ∃ t : State,
      exec i { s with ir := wordAtPc s, pc := s.pc + 2#16, schedule := s.schedule.tail } = .next t ∧
      (t.fault = none → step s = .next t) ∧
      (∀ r : FaultRecord, t.fault = some r →
        step s = .next { s with fault := some r, schedule := s.schedule.tail })

/-- R39: a fetch at PC >= 4096 faults with PC, and at 0xFFF with 0x1000; no word is fetched. The bound check as a
fault is the spec's own decision D5 (log entry 11). -/
def Obligations.FetchOutsideMemoryFaults : Prop :=
  ∀ s : State, s.runsCycle → s.fault = none →
    (4096 ≤ s.pc.toNat →
      step s = .next { s.popAction with
        fault := some { cause := .memoryBounds, addr := s.pc, word := none, info := s.pc.toNat } }) ∧
    (s.pc.toNat = 0xFFF →
      step s = .next { s.popAction with
        fault := some { cause := .memoryBounds, addr := s.pc, word := none, info := 0x1000 } }) ∧
    (s.pc.toNat < 0xFFF →
      s.fetch = .word (concatBytes (s.readByte s.pc.toNat) (s.readByte (s.pc.toNat + 1))))

/-- R115: a word that R60 lists as undefined raises DecodeFault with the word as its information. What the fault
leaves is the spec's own decision D7 (log entry 3); the words are those of its decisions D3 and D4 (log entry 9). -/
def Obligations.UndefinedWordRaisesDecodeFault : Prop :=
  ∀ s : State, s.runsCycle → s.fault = none → s.pc.toNat + 1 < 4096 → UndefinedWord (wordAtPc s) →
    step s = .next { s.popAction with
      fault := some { cause := .decode, addr := s.pc, word := some (wordAtPc s), info := (wordAtPc s).toNat } }

/-- R65: a cycle on a faulted core changes no state of the core. This is the spec's own decision D28 (log entry 3). -/
def Obligations.FaultedCoreExecutesNoCycle : Prop :=
  ∀ s : State, s.runsCycle → s.fault ≠ none →
    ∃ t : State, step s = .next t ∧ t = { s with schedule := s.schedule.tail }

/-- R118: a cycle that raises a fault leaves every piece of state as it was at its start, PC at the faulting
instruction, with FAULT set; and the next cycle changes nothing. This is the spec's own decision D7 (log entry 3). -/
def Obligations.FaultsArePreciseAndFatal : Prop :=
  ∀ (s t : State) (r : FaultRecord), s.runsCycle → s.fault = none → step s = .next t → t.fault = some r →
    t = { s.popAction with fault := some r } ∧ r.addr = s.pc ∧ cycleFault s = some r ∧
    (t.nextAction = .cycle → step t = .next t.popAction)

/-- R119, R114: every cycle of a core that has not faulted answers a next state, and the fault it records is the first
condition met in R119's order, with the information of R114; where none is met, none is recorded. The order is the
spec's own decision D25, the conditions its decisions D5, D7, D8 and D11 (log entries 3, 9, 11, 12 and 13). -/
def Obligations.CycleRecordsExactlyTheFirstFault : Prop :=
  ∀ s : State, s.runsCycle → s.fault = none →
    ∃ t : State, step s = .next t ∧ t.fault = cycleFault s

/-- R15: how each instruction leaves PC, with A the address it was fetched from. The spec marks the table as derived
from its own rules. -/
def Obligations.EachInstructionLeavesPcAsTheTableSays : Prop :=
  ∀ (s t : State) (i : Instr), s.runsCycle → s.fault = none → s.pc.toNat + 1 < 4096 →
    decodeWord (wordAtPc s) = .ok i → step s = .next t →
    (t.fault = none → t.pc = pcAfter s i) ∧ (t.fault ≠ none → t.pc = s.pc)

/-! ### Invariants and reset -/

/-- Every step, a host's action included, keeps the memory's canonical form. The form is the model's own (log entry
10). -/
def Obligations.StepKeepsMemoryCanonical : Prop :=
  ∀ s t : State, s.wf → step s = .next t → t.wf

/-- Every step, a host's action included, keeps this: a recorded fault is the fault of the instruction at PC. It rests
on the spec's own decision D7 (log entry 3). -/
def Obligations.StepKeepsTheFaultRecordTrue : Prop :=
  ∀ s t : State, s.faultTrue → step s = .next t → t.faultTrue

/-- Reset meets both invariants, for every FONT: the memory's canonical form, which is the model's own (log entry 10),
and that a recorded fault is that of the instruction at PC, which rests on the spec's own decision D7 (log entry 3).
-/
def Obligations.ResetMeetsTheInvariants : Prop :=
  ∀ font : Vector Byte 80, (State.resetWith font).wf ∧ (State.resetWith font).faultTrue

/-- R29: the value of every piece of state after reset, for every value of the parameter FONT. -/
def Obligations.ResetValues : Prop :=
  ∀ font : Vector Byte 80,
    (∀ r : Reg, (State.resetWith font).reg r = 0#8) ∧ (State.resetWith font).i = 0#16 ∧
    (State.resetWith font).pc = 0x200#16 ∧ (State.resetWith font).sp = 0 ∧
    (∀ j : Fin 16, (State.resetWith font).stack[j] = 0#16) ∧
    (State.resetWith font).dt = 0#8 ∧ (State.resetWith font).st = 0#8 ∧
    (∀ k : Fin 16, (State.resetWith font).key[k] = false) ∧
    (∀ x y : Nat, (State.resetWith font).pixel x y = false) ∧
    (State.resetWith font).ir = 0#16 ∧ (State.resetWith font).fault = none ∧
    (State.resetWith font).font = font ∧
    (∀ k : Fin 80, (State.resetWith font).readByte (0x050 + k.val) = font[k]) ∧
    (∀ a : Nat, a < 4096 → (a < 0x050 ∨ 0x09F < a) → (State.resetWith font).readByte a = 0#8)

/-- The machine's reset state is that of the default FONT of R30, glyph g at 0x050 + 5 g. The default's bytes are
general knowledge (log entry 5). -/
def Obligations.ResetHoldsTheDefaultFont : Prop :=
  State.reset = State.resetWith defaultFontBytes ∧
  State.reset.mem.readBytes 0x050 5 = [0xF0, 0x90, 0x90, 0x90, 0xF0] ∧
  State.reset.mem.readBytes 0x09B 5 = [0xF0, 0x80, 0xF0, 0x80, 0x80]

/-! ### The host's actions -/

/-- R74: SetKey sets KEY[k] and changes nothing else. -/
def Obligations.SetKeySetsOneKey : Prop :=
  ∀ (s : State) (k : Fin 16) (b : Bool), s.nextAction = .setKey k b →
    ∃ t : State, step s = .next t ∧ (∀ j : Fin 16, t.key[j] = if j = k then b else s.key[j]) ∧
      t = { s.popAction with key := t.key }

/-- R75: TimerDecay moves each timer one toward 0, stops at 0, and changes nothing else. The step of one is the spec's
own decision D15 (log entry 14). -/
def Obligations.TimerDecayCountsTowardZero : Prop :=
  ∀ s : State, s.nextAction = .timerDecay →
    ∃ t : State, step s = .next t ∧
      t.dt.toNat = (if s.dt.toNat > 0 then s.dt.toNat - 1 else 0) ∧
      t.st.toNat = (if s.st.toNat > 0 then s.st.toNat - 1 else 0) ∧
      t = { s.popAction with dt := t.dt, st := t.st }

/-- R130: Reset may be performed on any state, a faulted core included, and constructs the state afresh; it is the
only action that clears FAULT. (The draw count and the schedule, the model's own, go on: log entries 1 and 2.) Reset
of a running core is the spec's own decision D29. -/
def Obligations.OnlyResetClearsFault : Prop :=
  (∀ s : State, s.nextAction = .reset →
    step s = .next { State.resetWith s.font with draws := s.draws, schedule := s.schedule.tail }) ∧
  (∀ s t : State, s.fault ≠ none → step s = .next t → t.fault = none → s.nextAction = .reset)

/-- R131: Load copies the image byte for byte to 0x200 and up, and changes nothing else of the core; it is performed
on a state just produced by Reset (R77), and lets Cycles follow (R133; the boot phase is the model's own, log entry
8). -/
def Obligations.LoadCopiesTheImage : Prop :=
  ∀ (s : State) (image : List Byte), s.nextAction = .load (some image) →
    s = { State.resetWith s.font with draws := s.draws, schedule := s.schedule } →
    0 < image.length → image.length ≤ 3584 →
    ∃ t : State, step s = .next t ∧
      (∀ j : Nat, ∀ h : j < image.length, t.readByte (0x200 + j) = image[j]) ∧
      KeepsMemoryOutside 0x200 image.length s t ∧ t = { s.popAction with mem := t.mem, boot := .loaded }

/-- R132, R77: a Load of an image that cannot be read, is empty or is longer than 3584 bytes fails: the core's state
is as it was, and no Cycle is performed until a Reset, after which a Load is awaited again (O58 says that a Cycle then
needs a successful one); a Load on a state that is not one just produced by Reset is not performed (log entry 8). The
limits are the spec's own decision D23. -/
def Obligations.BadLoadWritesNothingAndForbidsCycles : Prop :=
  (∀ (s : State) (image : Option (List Byte)), s.nextAction = .load image →
    (s = { State.resetWith s.font with draws := s.draws, schedule := s.schedule } →
      (∀ bytes, image = some bytes → bytes.length = 0 ∨ 3584 < bytes.length) →
      step s = .next { s.popAction with boot := .loadFailed }) ∧
    (s ≠ { State.resetWith s.font with draws := s.draws, schedule := s.schedule } → step s = .refused .loadOutOfOrder)) ∧
  (∀ s : State, s.nextAction = .cycle → s.boot = .loadFailed → step s = .refused .noProgramLoaded) ∧
  (∀ s t : State, s.boot = .loadFailed → step s = .next t → t.boot ≠ .loadFailed →
    s.nextAction = .reset ∧ t.boot = .awaitingLoad)

/-- R76: Read returns the framebuffer, the timers and the fault as they are, and changes nothing; every host action but a
Cycle, Reset and Load leaves what the core's registers, memory and framebuffer hold. -/
def Obligations.ReadAndPollingLeaveTheCoreAlone : Prop :=
  (∀ s : State, s.nextAction = .read → step s = .next s.popAction ∧ s.popAction.observe = s.observe) ∧
  (∀ s : State, s.observe.fb = s.fb ∧ s.observe.dt = s.dt ∧ s.observe.st = s.st ∧ s.observe.fault = s.fault) ∧
  (∀ s t : State, (s.nextAction = .read ∨ s.nextAction = .timerDecay ∨ ∃ k b, s.nextAction = .setKey k b) →
    step s = .next t → KeepsRegsExcept [] s t ∧ KeepsMemory s t ∧
      t = { s.popAction with key := t.key, dt := t.dt, st := t.st })

/-! ### Register loads, arithmetic and logic -/

/-- R88, R90, R107: LD Vx, byte; LD Vx, Vy; LD Vx, DT complete in every state, load V[x] and change nothing else. -/
def Obligations.LoadsIntoOneRegister : Prop :=
  ∀ (s : State) (x y : Reg) (kk : Byte),
    (∃ t, exec (.ldByte x kk) s = .next t ∧ t.reg x = kk ∧ OnlyRegsChange [x] s t) ∧
    (∃ t, exec (.ldReg x y) s = .next t ∧ t.reg x = s.reg y ∧ OnlyRegsChange [x] s t) ∧
    (∃ t, exec (.ldVxDt x) s = .next t ∧ t.reg x = s.dt ∧ OnlyRegsChange [x] s t)

/-- R89: ADD Vx, byte wraps mod 256 and writes no flag: VF is unchanged unless x = 0xF. -/
def Obligations.AddImmediateWrapsWithoutFlag : Prop :=
  ∀ (s : State) (x : Reg) (kk : Byte),
    ∃ t, exec (.addByte x kk) s = .next t ∧
      (t.reg x).toNat = ((s.reg x).toNat + kk.toNat) % 256 ∧
      (x ≠ 0xF → t.reg 0xF = s.reg 0xF) ∧ OnlyRegsChange [x] s t

/-- R91, R92, R93: OR, AND and XOR, bit by bit; VF is not written unless x = 0xF. -/
def Obligations.LogicWorksBitByBit : Prop :=
  ∀ (s : State) (x y : Reg),
    (∃ t, exec (.orReg x y) s = .next t ∧
      (∀ k < 8, (t.reg x).getLsbD k = ((s.reg x).getLsbD k || (s.reg y).getLsbD k)) ∧ OnlyRegsChange [x] s t) ∧
    (∃ t, exec (.andReg x y) s = .next t ∧
      (∀ k < 8, (t.reg x).getLsbD k = ((s.reg x).getLsbD k && (s.reg y).getLsbD k)) ∧ OnlyRegsChange [x] s t) ∧
    (∃ t, exec (.xorReg x y) s = .next t ∧
      (∀ k < 8, (t.reg x).getLsbD k = ((s.reg x).getLsbD k != (s.reg y).getLsbD k)) ∧ OnlyRegsChange [x] s t)

/-- R94: ADD Vx, Vy: the sum mod 256, VF the carry; with x = 0xF VF ends as the carry. -/
def Obligations.AddSetsCarry : Prop :=
  ∀ (s : State) (x y : Reg),
    ∃ t, exec (.addReg x y) s = .next t ∧
      (x ≠ 0xF → (t.reg x).toNat = ((s.reg x).toNat + (s.reg y).toNat) % 256) ∧
      (t.reg 0xF).toNat = (if (s.reg x).toNat + (s.reg y).toNat > 255 then 1 else 0) ∧
      OnlyRegsChange [x, 0xF] s t

/-- R95: SUB Vx, Vy: the difference mod 256, VF = 1 when V[x] > V[y] strictly. -/
def Obligations.SubSetsNotBorrow : Prop :=
  ∀ (s : State) (x y : Reg),
    ∃ t, exec (.subReg x y) s = .next t ∧
      (x ≠ 0xF → ((t.reg x).toNat : Int) = (((s.reg x).toNat : Int) - ((s.reg y).toNat : Int)) % 256) ∧
      (t.reg 0xF).toNat = (if (s.reg x).toNat > (s.reg y).toNat then 1 else 0) ∧
      OnlyRegsChange [x, 0xF] s t

/-- R97: SUBN Vx, Vy: V[y] - V[x] mod 256, VF = 1 when V[y] > V[x] strictly. -/
def Obligations.SubnSetsNotBorrow : Prop :=
  ∀ (s : State) (x y : Reg),
    ∃ t, exec (.subnReg x y) s = .next t ∧
      (x ≠ 0xF → ((t.reg x).toNat : Int) = (((s.reg y).toNat : Int) - ((s.reg x).toNat : Int)) % 256) ∧
      (t.reg 0xF).toNat = (if (s.reg y).toNat > (s.reg x).toNat then 1 else 0) ∧
      OnlyRegsChange [x, 0xF] s t

/-- R96: SHR Vx: V[x] halved, VF its old bit 0; the y field is not used. That y is not used is the spec's own decision
D30 (log entry 15). -/
def Obligations.ShrShiftsOutTheLowBit : Prop :=
  ∀ (s : State) (x y : Reg),
    ∃ t, exec (.shr x y) s = .next t ∧
      (x ≠ 0xF → (t.reg x).toNat = (s.reg x).toNat / 2) ∧
      (t.reg 0xF).toNat = (s.reg x).toNat % 2 ∧ OnlyRegsChange [x, 0xF] s t

/-- R98: SHL Vx: V[x] doubled mod 256, VF its old bit 7; the y field is not used. That y is not used is the spec's own
decision D30 (log entry 15). -/
def Obligations.ShlShiftsOutTheHighBit : Prop :=
  ∀ (s : State) (x y : Reg),
    ∃ t, exec (.shl x y) s = .next t ∧
      (x ≠ 0xF → (t.reg x).toNat = (s.reg x).toNat * 2 % 256) ∧
      (t.reg 0xF).toNat = (s.reg x).toNat / 128 ∧ OnlyRegsChange [x, 0xF] s t

/-- R99: RND Vx, byte: a draw masked by kk, whatever the draw: V[x] has no bit that kk lacks, and kk = 0xFF gives the draw
itself. The draw is a free value and its count the model's own (log entry 1). -/
def Obligations.RndMasksAFreshDraw : Prop :=
  ∀ (s : State) (x : Reg) (kk : Byte),
    ∃ t, exec (.rnd x kk) s = .next t ∧
      (∀ k < 8, (t.reg x).getLsbD k = ((Config.randomDraw s.draws).getLsbD k && kk.getLsbD k)) ∧
      (kk = 0#8 → t.reg x = 0#8) ∧ (kk = 0xFF#8 → t.reg x = Config.randomDraw s.draws) ∧
      t.draws = s.draws + 1 ∧ KeepsRegsExcept [x] s t ∧ KeepsMemory s t ∧
      t = { s with v := t.v, draws := t.draws }

/-! ### Control transfer and skips -/

/-- R79, R85: JP addr and JP V0, addr complete in every state and change PC alone; the sum of JP V0 never passes 0x10FE. -/
def Obligations.JumpsSetPcAlone : Prop :=
  ∀ (s : State) (nnn : Addr12),
    (∃ t, exec (.jp nnn) s = .next t ∧ t.pc.toNat = nnn.toNat ∧ OnlyPcChanges s t) ∧
    (∃ t, exec (.jpV0 nnn) s = .next t ∧ t.pc.toNat = (s.reg 0).toNat + nnn.toNat ∧ t.pc.toNat ≤ 0x10FE ∧
      OnlyPcChanges s t)

/-- R80: CALL addr with room on the stack pushes PC (A + 2) into STACK[SP], adds 1 to SP and sets PC to nnn; with SP =
16 it raises StackOverflowFault(16) and writes nothing else. The fault is the spec's own decision D8 (log entry 12),
and that the pushed address is A + 2 its reading of the source (90_conflicts.md C2). -/
def Obligations.CallPushesTheReturnAddress : Prop :=
  ∀ (s : State) (nnn : Addr12),
    (s.sp.val < 16 →
      ∃ t, exec (.call nnn) s = .next t ∧ t.pc.toNat = nnn.toNat ∧ t.sp.val = s.sp.val + 1 ∧
        (∀ j : Fin 16, t.stack[j] = if j.val = s.sp.val then s.pc else s.stack[j]) ∧
        KeepsRegsExcept [] s t ∧ KeepsMemory s t ∧ t = { s with pc := t.pc, sp := t.sp, stack := t.stack }) ∧
    (s.sp.val = 16 → exec (.call nnn) s = .next (RaisedIn s .stackOverflow 16))

/-- R78: RET with an address on the stack subtracts 1 from SP and sets PC from STACK[SP], which keeps its value; with
SP = 0 it raises StackUnderflowFault(0) and writes nothing else. The fault is the spec's own decision D8 (log entry
12). -/
def Obligations.RetPopsTheReturnAddress : Prop :=
  ∀ s : State,
    (∀ j : Fin 16, s.sp.val = j.val + 1 →
      ∃ t, exec .ret s = .next t ∧ t.pc = s.stack[j] ∧ t.sp.val = j.val ∧
        KeepsRegsExcept [] s t ∧ KeepsMemory s t ∧ t = { s with pc := t.pc, sp := t.sp }) ∧
    (s.sp.val = 0 → exec .ret s = .next (RaisedIn s .stackUnderflow 0))

/-- "CALL 0x300 then RET from 0x300 restores PC to the instruction immediately following the original CALL"
(95_test_vectors.md W11): a RET run with the stack as a CALL left it goes back to A + 2, wherever it runs and whatever
else has changed. -/
def Obligations.RetUndoesCall : Prop :=
  ∀ (s t u : State) (nnn : Addr12), s.sp.val < 16 → exec (.call nnn) s = .next t →
    u.stack = t.stack → u.sp = t.sp →
    ∃ z, exec .ret u = .next z ∧ z.pc = s.pc ∧ z.sp = s.sp ∧ z.stack = t.stack

/-- R81, R82, R83, R84: SE and SNE add 2 to PC when the comparison holds and leave PC where it is otherwise; nothing else
changes. -/
def Obligations.ComparisonsSkip : Prop :=
  ∀ (s : State) (x y : Reg) (kk : Byte),
    (∃ t, exec (.seByte x kk) s = .next t ∧
      t.pc = (if (s.reg x).toNat = kk.toNat then s.pc + 2#16 else s.pc) ∧ OnlyPcChanges s t) ∧
    (∃ t, exec (.sneByte x kk) s = .next t ∧
      t.pc = (if (s.reg x).toNat = kk.toNat then s.pc else s.pc + 2#16) ∧ OnlyPcChanges s t) ∧
    (∃ t, exec (.seReg x y) s = .next t ∧
      t.pc = (if (s.reg x).toNat = (s.reg y).toNat then s.pc + 2#16 else s.pc) ∧ OnlyPcChanges s t) ∧
    (∃ t, exec (.sneReg x y) s = .next t ∧
      t.pc = (if (s.reg x).toNat = (s.reg y).toNat then s.pc else s.pc + 2#16) ∧ OnlyPcChanges s t)

/-- R86, R87: SKP and SKNP skip on the key that V[x] names, and raise KeyIndexFault(V[x]) when V[x] > 15. The fault is
the spec's own decision D11 (log entry 13). -/
def Obligations.KeySkipsReadTheLatch : Prop :=
  ∀ (s : State) (x : Reg),
    (∀ k : Fin 16, (s.reg x).toNat = k.val →
      (∃ t, exec (.skp x) s = .next t ∧ t.pc = (if s.key[k] = true then s.pc + 2#16 else s.pc) ∧
        OnlyPcChanges s t) ∧
      (∃ t, exec (.sknp x) s = .next t ∧ t.pc = (if s.key[k] = true then s.pc else s.pc + 2#16) ∧
        OnlyPcChanges s t)) ∧
    (15 < (s.reg x).toNat →
      exec (.skp x) s = .next (RaisedIn s .keyIndex (s.reg x).toNat) ∧
      exec (.sknp x) s = .next (RaisedIn s .keyIndex (s.reg x).toNat))

/-! ### The index register and memory transfers -/

/-- R101, R102, R103: LD I, addr; ADD I, Vx; LD F, Vx complete in every state and change I alone: VF is not written, even
when I wraps. -/
def Obligations.IndexInstructionsSetIAlone : Prop :=
  ∀ (s : State) (x : Reg) (nnn : Addr12),
    (∃ t, exec (.ldI nnn) s = .next t ∧ t.i.toNat = nnn.toNat ∧ KeepsRegsExcept [] s t ∧ KeepsMemory s t ∧
      t = { s with i := t.i }) ∧
    (∃ t, exec (.addI x) s = .next t ∧ t.i.toNat = (s.i.toNat + (s.reg x).toNat) % 65536 ∧ KeepsRegsExcept [] s t ∧
      KeepsMemory s t ∧ t = { s with i := t.i }) ∧
    (∃ t, exec (.ldF x) s = .next t ∧ t.i.toNat = 0x050 + 5 * ((s.reg x).toNat % 16) ∧ KeepsRegsExcept [] s t ∧
      KeepsMemory s t ∧ t = { s with i := t.i })

/-- R104: LD B, Vx inside MEM writes hundreds, tens and ones to I, I + 1 and I + 2 and nothing else; otherwise it
raises MemoryBoundsFault with the lowest address outside, and writes nothing. The bound check is the spec's own
decision D5 (log entry 11). -/
def Obligations.LdBStoresTheDecimalDigits : Prop :=
  ∀ (s : State) (x : Reg),
    (s.wf → s.i.toNat + 2 < 4096 →
      ∃ t, exec (.ldB x) s = .next t ∧
        (t.readByte s.i.toNat).toNat = (s.reg x).toNat / 100 ∧
        (t.readByte (s.i.toNat + 1)).toNat = (s.reg x).toNat / 10 % 10 ∧
        (t.readByte (s.i.toNat + 2)).toNat = (s.reg x).toNat % 10 ∧
        KeepsMemoryOutside s.i.toNat 3 s t ∧ KeepsRegsExcept [] s t ∧ t = { s with mem := t.mem }) ∧
    (4096 ≤ s.i.toNat + 2 → exec (.ldB x) s = .next (RaisedIn s .memoryBounds (max s.i.toNat 4096)))

/-- R105: LD [I], Vx inside MEM writes V0 to Vx to I and up and nothing else, I unchanged; otherwise it raises
MemoryBoundsFault with the lowest address outside, and writes nothing. I unchanged is the spec's own decision D12 (log
entry 16), the bound check its decision D5 (log entry 11). -/
def Obligations.StoreRegsWritesTheBlock : Prop :=
  ∀ (s : State) (x : Reg),
    (s.wf → s.i.toNat + x.val < 4096 →
      ∃ t, exec (.storeRegs x) s = .next t ∧
        (∀ k : Reg, k.val ≤ x.val → t.readByte (s.i.toNat + k.val) = s.reg k) ∧
        KeepsMemoryOutside s.i.toNat (x.val + 1) s t ∧ KeepsRegsExcept [] s t ∧ t = { s with mem := t.mem }) ∧
    (4096 ≤ s.i.toNat + x.val → exec (.storeRegs x) s = .next (RaisedIn s .memoryBounds (max s.i.toNat 4096)))

/-- R106: LD Vx, [I] inside MEM reads I and up into V0 to Vx and changes nothing else, VF an ordinary register;
otherwise it raises MemoryBoundsFault with the lowest address outside, and writes no register. I unchanged is the
spec's own decision D12 (log entry 16), the bound check its decision D5 (log entry 11). -/
def Obligations.LoadRegsReadsTheBlock : Prop :=
  ∀ (s : State) (x : Reg),
    (s.i.toNat + x.val < 4096 →
      ∃ t, exec (.loadRegs x) s = .next t ∧
        (∀ k : Reg, t.reg k = if k.val ≤ x.val then s.readByte (s.i.toNat + k.val) else s.reg k) ∧
        KeepsMemory s t ∧ t = { s with v := t.v }) ∧
    (4096 ≤ s.i.toNat + x.val → exec (.loadRegs x) s = .next (RaisedIn s .memoryBounds (max s.i.toNat 4096)))

/-- "`LD [I],Vx` followed immediately by `LD Vx,[I]` with the same x and same I restores the original register values"
(R106): whatever PC, IR and the registers are in between. The spec marks it as its own inference. -/
def Obligations.StoreThenLoadRestoresTheRegisters : Prop :=
  ∀ (s t u : State) (x : Reg), s.wf → s.i.toNat + x.val < 4096 → exec (.storeRegs x) s = .next t →
    u.mem = t.mem → u.i = t.i →
    ∃ z, exec (.loadRegs x) u = .next z ∧ ∀ k : Reg, k.val ≤ x.val → z.reg k = s.reg k

/-- R47: a write to MEM is seen by the next fetch: after LD [I], Vx over the two bytes at PC, the fetch reads the
registers just stored, high byte first. The spec marks R47 as its own inference and decision D20. -/
def Obligations.StoredBytesAreFetched : Prop :=
  ∀ (s t : State) (x j k : Reg), s.wf → s.i.toNat + x.val < 4096 → k.val = j.val + 1 → k.val ≤ x.val →
    s.pc.toNat = s.i.toNat + j.val → exec (.storeRegs x) s = .next t →
    t.fetch = .word (concatBytes (s.reg j) (s.reg k))

/-! ### Timers and the key wait -/

/-- R108: LD Vx, K loads the least latched key; with no key latched it moves PC back by 2 and changes nothing else. -/
def Obligations.KeyWaitLoadsTheLeastKeyOrRepeats : Prop :=
  ∀ (s : State) (x : Reg),
    (∀ k : Fin 16, s.key[k] = true → (∀ j : Fin 16, j.val < k.val → s.key[j] = false) →
      ∃ t, exec (.ldVxK x) s = .next t ∧ (t.reg x).toNat = k.val ∧ OnlyRegsChange [x] s t) ∧
    ((∀ k : Fin 16, s.key[k] = false) →
      ∃ t, exec (.ldVxK x) s = .next t ∧ t.pc = s.pc - 2#16 ∧ OnlyPcChanges s t)

/-- R109, R110: LD DT, Vx and LD ST, Vx set their timer and change nothing else. -/
def Obligations.TimerLoadsSetOneTimer : Prop :=
  ∀ (s : State) (x : Reg),
    (∃ t, exec (.ldDtVx x) s = .next t ∧ t.dt = s.reg x ∧ KeepsRegsExcept [] s t ∧ KeepsMemory s t ∧
      t = { s with dt := t.dt }) ∧
    (∃ t, exec (.ldStVx x) s = .next t ∧ t.st = s.reg x ∧ KeepsRegsExcept [] s t ∧ KeepsMemory s t ∧
      t = { s with st := t.st })

/-! ### Graphics -/

/-- R112: CLS turns every pixel off and changes nothing else, VF included. -/
def Obligations.ClsClearsTheScreen : Prop :=
  ∀ s : State, ∃ t, exec .cls s = .next t ∧ (∀ x y : Nat, t.pixel x y = false) ∧ KeepsRegsExcept [] s t ∧
    KeepsMemory s t ∧ t = { s with fb := t.fb }

/-- R113, R111: DRW inside MEM (or with n = 0) toggles the pixels of the framebuffer that a set sprite bit falls on,
its origin wrapped and its pixels clipped; VF is 1 exactly when one of them was on; nothing else changes. Otherwise it
raises MemoryBoundsFault with the lowest address outside, and writes nothing. Clipping is the spec's own decision D9
(log entry 17), the origin from the old VF its decision D10 (log entry 18), the bound check its decision D5 (log entry
11). -/
def Obligations.DrwTogglesTheSpriteAndReportsCollision : Prop :=
  ∀ (s : State) (x y : Reg) (n : Nat),
    ((n = 0 ∨ s.i.toNat + n ≤ 4096) →
      ∃ t, exec (.drw x y n) s = .next t ∧
        (∀ px py : Nat, px < 64 → py < 32 → t.pixel px py = (s.pixel px py != spriteCovers s x y n px py)) ∧
        ((∃ px py : Nat, px < 64 ∧ py < 32 ∧ spriteCovers s x y n px py = true ∧ s.pixel px py = true) →
          t.reg 0xF = 1#8) ∧
        ((∀ px py : Nat, px < 64 → py < 32 → spriteCovers s x y n px py = true → s.pixel px py = false) →
          t.reg 0xF = 0#8) ∧
        KeepsRegsExcept [0xF] s t ∧ KeepsMemory s t ∧ t = { s with v := t.v, fb := t.fb }) ∧
    (n ≠ 0 → 4096 < s.i.toNat + n → exec (.drw x y n) s = .next (RaisedIn s .memoryBounds (max s.i.toNat 4096)))

/-- "Drawing the same sprite twice at the same place with nothing between restores every pixel" (R113), where the
second draw has the same origin (neither coordinate register is VF), and the second draw sets VF exactly when some
drawn pixel was off before the first. The spec marks it as its own inference; it rests on the clipping of its decision
D9 (log entry 17). -/
def Obligations.DrawingTwiceRestoresTheScreen : Prop :=
  ∀ (s t : State) (x y : Reg) (n : Nat), x ≠ 0xF → y ≠ 0xF → (n = 0 ∨ s.i.toNat + n ≤ 4096) →
    exec (.drw x y n) s = .next t →
    ∃ z, exec (.drw x y n) t = .next z ∧ z.fb = s.fb ∧
      ((z.reg 0xF = 1#8) ↔
        ∃ px py : Nat, px < 64 ∧ py < 32 ∧ spriteCovers s x y n px py = true ∧ s.pixel px py = false) ∧
      (z.reg 0xF = 0#8 ∨ z.reg 0xF = 1#8)

/-- "`CLS` followed by any `DRW` with no prior drawing yields VF=0 (no collision possible on a blank screen)"
(95_test_vectors.md W5). -/
def Obligations.NoCollisionAfterCls : Prop :=
  ∀ (s t u : State) (x y : Reg) (n : Nat), exec .cls s = .next t → u.fb = t.fb → (n = 0 ∨ u.i.toNat + n ≤ 4096) →
    ∃ z, exec (.drw x y n) u = .next z ∧ z.reg 0xF = 0#8

/-! ### Whole-machine rules -/

/-- R13: "nothing else writes VF" but the flag instructions and those whose destination VF is; more generally no
instruction changes a register that is not its destination, but for VF as a flag; and a flag is 0 or 1. -/
def Obligations.OnlyFlagInstructionsWriteVf : Prop :=
  ∀ (s t : State) (i : Instr), exec i s = .next t →
    (∀ r : Reg, r ∉ resultRegs i → (writesFlag i = true → r ≠ 0xF) → t.reg r = s.reg r) ∧
    (writesFlag i = true → s.fault = none → t.fault = none → t.reg 0xF = 0#8 ∨ t.reg 0xF = 1#8)

/-- R18: only LD I, ADD I and LD F write I. That LD [I], Vx and LD Vx, [I] leave I unchanged is the spec's own
decision D12 (log entry 16). -/
def Obligations.OnlyIndexInstructionsWriteI : Prop :=
  ∀ (s t : State) (i : Instr), exec i s = .next t →
    t.i ≠ s.i → (∃ nnn, i = .ldI nnn) ∨ (∃ x, i = .addI x) ∨ (∃ x, i = .ldF x)

/-- R22, R23, R24, R26: no handler writes KEY or IR; DT is written by LD DT, Vx alone and ST by LD ST, Vx alone. -/
def Obligations.TimersLatchAndIrHaveTheirOwnWriters : Prop :=
  ∀ (s t : State) (i : Instr), exec i s = .next t →
    t.key = s.key ∧ t.ir = s.ir ∧ (t.dt ≠ s.dt → ∃ x, i = .ldDtVx x) ∧ (t.st ≠ s.st → ∃ x, i = .ldStVx x)

/-- R20, R25: the call stack is written by CALL and RET alone, and a pushed slot by CALL alone; FB by CLS and DRW
alone. It rests on the spec's own decisions D8 and D27 (log entries 12 and 4). -/
def Obligations.StackAndFramebufferHaveTheirOwnWriters : Prop :=
  ∀ (s t : State) (i : Instr), exec i s = .next t →
    (t.stack ≠ s.stack → ∃ nnn, i = .call nnn) ∧
    (t.sp ≠ s.sp → i = .ret ∨ ∃ nnn, i = .call nnn) ∧
    (t.fb ≠ s.fb → i = .cls ∨ ∃ x y n, i = .drw x y n)

/-- R40: an instruction writes MEM at I and up only, as many bytes as the table says: 3 for LD B, x + 1 for LD [I],
Vx, and none otherwise. Addresses are the spec's own reading of R38 (decision D5, log entry 11). -/
def Obligations.OnlyTheListedBytesAreWritten : Prop :=
  ∀ (s t : State) (i : Instr), exec i s = .next t →
    KeepsMemoryOutside s.i.toNat (bytesWritten i) s t

/-- FONT is a parameter (R5): no step, a host's action included, changes it. That State holds it is the model's own
way to leave it open (log entry 5). -/
def Obligations.NoStepChangesTheFont : Prop :=
  ∀ s t : State, step s = .next t → t.font = s.font

/-! ### The boot order -/

/-- R77, R132, R133: the boot order is Reset, then one successful Load, then Cycles. A Cycle with no successful Load
since the last Reset is not performed; the only step that leads to where one may be is a Load of a good image on a
state that awaits it; after it no second Load is performed; and a Reset starts again. The boot phase, and the refusals
by which the model does not perform an action, are the model's own (log entry 8); the limits are the spec's own
decision D23. -/
def Obligations.NoCycleBeforeASuccessfulLoad : Prop :=
  (∀ s : State, s.nextAction = .cycle → s.boot ≠ .loaded → step s = .refused .noProgramLoaded) ∧
  (∀ s t : State, s.boot ≠ .loaded → step s = .next t → t.boot = .loaded →
    s.boot = .awaitingLoad ∧
      ∃ image : List Byte, s.nextAction = .load (some image) ∧ 0 < image.length ∧ image.length ≤ 3584) ∧
  (∀ (s : State) (image : Option (List Byte)), s.boot = .loaded → s.nextAction = .load image →
    step s = .refused .loadOutOfOrder) ∧
  (∀ s : State, s.nextAction = .reset → ∃ t : State, step s = .next t ∧ t.boot = .awaitingLoad)

/-- R77, R133: every step, a host's action included, keeps this: until a Load succeeds the core has executed nothing
and is as Reset leaves it, but for the latch (R74) and the model's own fields (log entries 1, 2 and 8). -/
def Obligations.CoreIsAsResetUntilALoadSucceeds : Prop :=
  ∀ s t : State, s.asResetUntilLoaded → step s = .next t → t.asResetUntilLoaded

/-- Reset, for every FONT, awaits a Load (log entry 8) and is as Reset leaves it. -/
def Obligations.ResetAwaitsALoad : Prop :=
  ∀ font : Vector Byte 80, (State.resetWith font).boot = .awaitingLoad ∧ (State.resetWith font).asResetUntilLoaded
end

