-- ==== Sys2Proof/Laws/Decode.lean ====
section
/-! SUPPORT. The fields of a word built from fields, a word built from its fields, and the row a word of each format
matches. -/

namespace Sys2Proof

/-! ### Registers as bits -/

@[simp] theorem regOfBits_regBits (r : Reg) : regOfBits (regBits r) = r := rfl

@[simp] theorem regBits_regOfBits (b : Nibble) : regBits (regOfBits b) = b := rfl

/-! ### Fields of a built word -/

@[simp] theorem opField_wordA (op : Nibble) (nnn : Addr12) : opField (wordA op nnn) = op := by
  refine BitVec.eq_of_getLsbD_eq fun i hi => ?_
  simp only [opField, wordA, BitVec.getLsbD_extractLsb', BitVec.getLsbD_append]
  simp [hi]

@[simp] theorem nnnField_wordA (op : Nibble) (nnn : Addr12) : nnnField (wordA op nnn) = nnn := by
  refine BitVec.eq_of_getLsbD_eq fun i hi => ?_
  simp only [nnnField, wordA, BitVec.getLsbD_extractLsb', BitVec.getLsbD_append]
  simp [hi]

@[simp] theorem opField_wordXK (op : Nibble) (x : Reg) (kk : Byte) : opField (wordXK op x kk) = op := by
  refine BitVec.eq_of_getLsbD_eq fun i hi => ?_
  simp only [opField, wordXK, BitVec.getLsbD_extractLsb', BitVec.getLsbD_append]
  simp [hi, show ¬12 + i < 8 by omega, show ¬12 + i - 8 < 4 by omega,
    show 12 + i - 8 - 4 = i by omega]

@[simp] theorem xBits_wordXK (op : Nibble) (x : Reg) (kk : Byte) : xBits (wordXK op x kk) = regBits x := by
  refine BitVec.eq_of_getLsbD_eq fun i hi => ?_
  simp only [xBits, wordXK, BitVec.getLsbD_extractLsb', BitVec.getLsbD_append]
  simp [hi]

@[simp] theorem kkField_wordXK (op : Nibble) (x : Reg) (kk : Byte) : kkField (wordXK op x kk) = kk := by
  refine BitVec.eq_of_getLsbD_eq fun i hi => ?_
  simp only [kkField, wordXK, BitVec.getLsbD_extractLsb', BitVec.getLsbD_append]
  simp [hi]

@[simp] theorem opField_wordXY (op : Nibble) (x y : Reg) (n : Nibble) : opField (wordXY op x y n) = op := by
  refine BitVec.eq_of_getLsbD_eq fun i hi => ?_
  simp only [opField, wordXY, BitVec.getLsbD_extractLsb', BitVec.getLsbD_append]
  simp [hi, show ¬12 + i < 4 by omega, show ¬12 + i - 4 < 4 by omega,
    show ¬12 + i - 4 - 4 < 4 by omega, show 12 + i - 4 - 4 - 4 = i by omega]

@[simp] theorem xBits_wordXY (op : Nibble) (x y : Reg) (n : Nibble) : xBits (wordXY op x y n) = regBits x := by
  refine BitVec.eq_of_getLsbD_eq fun i hi => ?_
  simp only [xBits, wordXY, BitVec.getLsbD_extractLsb', BitVec.getLsbD_append]
  simp [hi, show ¬8 + i < 4 by omega, show ¬8 + i - 4 < 4 by omega,
    show 8 + i - 4 - 4 = i by omega]

@[simp] theorem yBits_wordXY (op : Nibble) (x y : Reg) (n : Nibble) : yBits (wordXY op x y n) = regBits y := by
  refine BitVec.eq_of_getLsbD_eq fun i hi => ?_
  simp only [yBits, wordXY, BitVec.getLsbD_extractLsb', BitVec.getLsbD_append]
  simp [hi]

@[simp] theorem nBits_wordXY (op : Nibble) (x y : Reg) (n : Nibble) : nBits (wordXY op x y n) = n := by
  refine BitVec.eq_of_getLsbD_eq fun i hi => ?_
  simp only [nBits, wordXY, BitVec.getLsbD_extractLsb', BitVec.getLsbD_append]
  simp [hi]

/-! ### A word from its fields -/

theorem wordA_fields (w : Word) : wordA (opField w) (nnnField w) = w := by
  refine BitVec.eq_of_getLsbD_eq fun i hi => ?_
  simp only [wordA, opField, nnnField, BitVec.getLsbD_append, BitVec.getLsbD_extractLsb']
  split
  · next h => simp [h]
  · next h => simp [show i - 12 < 4 by omega, show 12 + (i - 12) = i by omega]

theorem wordXK_fields (w : Word) : wordXK (opField w) (xField w) (kkField w) = w := by
  refine BitVec.eq_of_getLsbD_eq fun i hi => ?_
  simp only [wordXK, opField, xField, xBits, kkField, regBits_regOfBits, BitVec.getLsbD_append,
    BitVec.getLsbD_extractLsb']
  split
  · next h => simp [h]
  · next h =>
    split
    · next h' => simp [h', show 8 + (i - 8) = i by omega]
    · next h' => simp [show i - 8 - 4 < 4 by omega, show 12 + (i - 8 - 4) = i by omega]

theorem wordXY_fields (w : Word) : wordXY (opField w) (xField w) (yField w) (nBits w) = w := by
  refine BitVec.eq_of_getLsbD_eq fun i hi => ?_
  simp only [wordXY, opField, xField, xBits, yField, yBits, nBits, regBits_regOfBits, BitVec.getLsbD_append,
    BitVec.getLsbD_extractLsb']
  split
  · next h => simp [h]
  · next h =>
    split
    · next h' => simp [h', show 4 + (i - 4) = i by omega]
    · next h' =>
      split
      · next h'' => simp [h'', show 8 + (i - 4 - 4) = i by omega]
      · next h'' => simp [show i - 4 - 4 - 4 < 4 by omega, show 12 + (i - 4 - 4 - 4) = i by omega]

/-! ### A word from its bytes -/

@[simp] theorem concatBytes_bytes (w : Word) : concatBytes (highByte w) (lowByte w) = w := by
  refine BitVec.eq_of_getLsbD_eq fun i hi => ?_
  simp only [concatBytes, highByte, lowByte, BitVec.getLsbD_append, BitVec.getLsbD_extractLsb']
  split
  · next h => simp [h]
  · next h => simp [show i - 8 < 8 by omega, show 8 + (i - 8) = i by omega]

/-! ### Rows of the opcode map -/

/-- The mask 0xF000 keeps the top nibble. -/
theorem mask_op (w : Word) : w &&& 0xF000#16 = wordA (opField w) 0x000#12 := by
  conv_lhs => rw [← wordA_fields w]
  rw [show (0xF000#16 : Word) = 0xF#4 ++ 0x000#12 from rfl, wordA, BitVec.and_append]
  simp [wordA, show opField w &&& 0xF#4 = opField w from BitVec.and_allOnes]

/-- The mask 0xF00F keeps the top and the low nibble. -/
theorem mask_op_fn4 (w : Word) : w &&& 0xF00F#16 = wordXY (opField w) 0 0 (nBits w) := by
  conv_lhs => rw [← wordXY_fields w]
  rw [show (0xF00F#16 : Word) = 0xF#4 ++ 0x0#4 ++ 0x0#4 ++ 0xF#4 from rfl, wordXY, BitVec.and_append, BitVec.and_append,
    BitVec.and_append]
  simp only [BitVec.and_zero]
  rw [show opField w &&& 0xF#4 = opField w from BitVec.and_allOnes, show nBits w &&& 0xF#4 = nBits w from BitVec.and_allOnes]
  rfl

/-- The mask 0xF0FF keeps the top nibble and the low byte. -/
theorem mask_op_fn8 (w : Word) : w &&& 0xF0FF#16 = wordXK (opField w) 0 (kkField w) := by
  conv_lhs => rw [← wordXK_fields w]
  rw [show (0xF0FF#16 : Word) = 0xF#4 ++ 0x0#4 ++ 0xFF#8 from rfl, wordXK, BitVec.and_append, BitVec.and_append]
  simp only [BitVec.and_zero]
  rw [show opField w &&& 0xF#4 = opField w from BitVec.and_allOnes, show kkField w &&& 0xFF#8 = kkField w from BitVec.and_allOnes]
  rfl

theorem wordA_row (op : Nibble) (nnn : Addr12) (m : Word) (h : wordA op 0 = m) :
    rowMatches (0xF000, m) (wordA op nnn) = true := by
  simp only [rowMatches, decide_eq_true_eq]
  exact (mask_op _).trans (by rw [opField_wordA]; exact h)

theorem wordXK_row_op (op : Nibble) (x : Reg) (kk : Byte) (m : Word) (h : wordA op 0 = m) :
    rowMatches (0xF000, m) (wordXK op x kk) = true := by
  simp only [rowMatches, decide_eq_true_eq]
  exact (mask_op _).trans (by rw [opField_wordXK]; exact h)

theorem wordXY_row_op (op : Nibble) (x y : Reg) (n : Nibble) (m : Word) (h : wordA op 0 = m) :
    rowMatches (0xF000, m) (wordXY op x y n) = true := by
  simp only [rowMatches, decide_eq_true_eq]
  exact (mask_op _).trans (by rw [opField_wordXY]; exact h)

theorem wordXY_row (op : Nibble) (x y : Reg) (fn4 : Nibble) (m : Word) (h : wordXY op 0 0 fn4 = m) :
    rowMatches (0xF00F, m) (wordXY op x y fn4) = true := by
  simp only [rowMatches, decide_eq_true_eq]
  exact (mask_op_fn4 _).trans (by rw [opField_wordXY, nBits_wordXY]; exact h)

theorem wordXK_row (op : Nibble) (x : Reg) (fn8 : Byte) (m : Word) (h : wordXK op 0 fn8 = m) :
    rowMatches (0xF0FF, m) (wordXK op x fn8) = true := by
  simp only [rowMatches, decide_eq_true_eq]
  exact (mask_op_fn8 _).trans (by rw [opField_wordXK, kkField_wordXK]; exact h)

/-- Every instruction's row is one of the opcode map. -/
theorem row_mem_opcodeMap (i : Instr) : i.row ∈ opcodeMap := by
  cases i <;> simp [Instr.row, opcodeMap]

end Sys2Proof
end

