-- ==== Sys2Proof/Laws/State.lean ====
section
/-! SUPPORT. One lemma per field for each update of the state, and what a read of a register, a byte or a pixel gives
after one, so that no later proof unfolds a record update. -/

namespace Sys2Proof.Machine

/-! ### `State.setReg` -/

@[simp] theorem State.setReg_v (s : State) (r : Reg) (b : Byte) : (s.setReg r b).v = s.v.set r b := rfl
@[simp] theorem State.setReg_i (s : State) (r : Reg) (b : Byte) : (s.setReg r b).i = s.i := rfl
@[simp] theorem State.setReg_pc (s : State) (r : Reg) (b : Byte) : (s.setReg r b).pc = s.pc := rfl
@[simp] theorem State.setReg_sp (s : State) (r : Reg) (b : Byte) : (s.setReg r b).sp = s.sp := rfl
@[simp] theorem State.setReg_stack (s : State) (r : Reg) (b : Byte) : (s.setReg r b).stack = s.stack := rfl
@[simp] theorem State.setReg_dt (s : State) (r : Reg) (b : Byte) : (s.setReg r b).dt = s.dt := rfl
@[simp] theorem State.setReg_st (s : State) (r : Reg) (b : Byte) : (s.setReg r b).st = s.st := rfl
@[simp] theorem State.setReg_key (s : State) (r : Reg) (b : Byte) : (s.setReg r b).key = s.key := rfl
@[simp] theorem State.setReg_fb (s : State) (r : Reg) (b : Byte) : (s.setReg r b).fb = s.fb := rfl
@[simp] theorem State.setReg_ir (s : State) (r : Reg) (b : Byte) : (s.setReg r b).ir = s.ir := rfl
@[simp] theorem State.setReg_mem (s : State) (r : Reg) (b : Byte) : (s.setReg r b).mem = s.mem := rfl
@[simp] theorem State.setReg_fault (s : State) (r : Reg) (b : Byte) : (s.setReg r b).fault = s.fault := rfl
@[simp] theorem State.setReg_font (s : State) (r : Reg) (b : Byte) : (s.setReg r b).font = s.font := rfl
@[simp] theorem State.setReg_draws (s : State) (r : Reg) (b : Byte) : (s.setReg r b).draws = s.draws := rfl
@[simp] theorem State.setReg_schedule (s : State) (r : Reg) (b : Byte) : (s.setReg r b).schedule = s.schedule := rfl
@[simp] theorem State.setReg_boot (s : State) (r : Reg) (b : Byte) : (s.setReg r b).boot = s.boot := rfl

/-! ### `State.setRegFlag` -/

@[simp] theorem State.setRegFlag_v (s : State) (x : Reg) (r f : Byte) : (s.setRegFlag x r f).v = (s.v.set x r).set vF f := rfl
@[simp] theorem State.setRegFlag_i (s : State) (x : Reg) (r f : Byte) : (s.setRegFlag x r f).i = s.i := rfl
@[simp] theorem State.setRegFlag_pc (s : State) (x : Reg) (r f : Byte) : (s.setRegFlag x r f).pc = s.pc := rfl
@[simp] theorem State.setRegFlag_sp (s : State) (x : Reg) (r f : Byte) : (s.setRegFlag x r f).sp = s.sp := rfl
@[simp] theorem State.setRegFlag_stack (s : State) (x : Reg) (r f : Byte) : (s.setRegFlag x r f).stack = s.stack := rfl
@[simp] theorem State.setRegFlag_dt (s : State) (x : Reg) (r f : Byte) : (s.setRegFlag x r f).dt = s.dt := rfl
@[simp] theorem State.setRegFlag_st (s : State) (x : Reg) (r f : Byte) : (s.setRegFlag x r f).st = s.st := rfl
@[simp] theorem State.setRegFlag_key (s : State) (x : Reg) (r f : Byte) : (s.setRegFlag x r f).key = s.key := rfl
@[simp] theorem State.setRegFlag_fb (s : State) (x : Reg) (r f : Byte) : (s.setRegFlag x r f).fb = s.fb := rfl
@[simp] theorem State.setRegFlag_ir (s : State) (x : Reg) (r f : Byte) : (s.setRegFlag x r f).ir = s.ir := rfl
@[simp] theorem State.setRegFlag_mem (s : State) (x : Reg) (r f : Byte) : (s.setRegFlag x r f).mem = s.mem := rfl
@[simp] theorem State.setRegFlag_fault (s : State) (x : Reg) (r f : Byte) : (s.setRegFlag x r f).fault = s.fault := rfl
@[simp] theorem State.setRegFlag_font (s : State) (x : Reg) (r f : Byte) : (s.setRegFlag x r f).font = s.font := rfl
@[simp] theorem State.setRegFlag_draws (s : State) (x : Reg) (r f : Byte) : (s.setRegFlag x r f).draws = s.draws := rfl
@[simp] theorem State.setRegFlag_schedule (s : State) (x : Reg) (r f : Byte) : (s.setRegFlag x r f).schedule = s.schedule := rfl
@[simp] theorem State.setRegFlag_boot (s : State) (x : Reg) (r f : Byte) : (s.setRegFlag x r f).boot = s.boot := rfl

/-! ### `State.storeBytes` -/

@[simp] theorem State.storeBytes_v (s : State) (a : Nat) (bs : List Byte) : (s.storeBytes a bs).v = s.v := rfl
@[simp] theorem State.storeBytes_i (s : State) (a : Nat) (bs : List Byte) : (s.storeBytes a bs).i = s.i := rfl
@[simp] theorem State.storeBytes_pc (s : State) (a : Nat) (bs : List Byte) : (s.storeBytes a bs).pc = s.pc := rfl
@[simp] theorem State.storeBytes_sp (s : State) (a : Nat) (bs : List Byte) : (s.storeBytes a bs).sp = s.sp := rfl
@[simp] theorem State.storeBytes_stack (s : State) (a : Nat) (bs : List Byte) : (s.storeBytes a bs).stack = s.stack := rfl
@[simp] theorem State.storeBytes_dt (s : State) (a : Nat) (bs : List Byte) : (s.storeBytes a bs).dt = s.dt := rfl
@[simp] theorem State.storeBytes_st (s : State) (a : Nat) (bs : List Byte) : (s.storeBytes a bs).st = s.st := rfl
@[simp] theorem State.storeBytes_key (s : State) (a : Nat) (bs : List Byte) : (s.storeBytes a bs).key = s.key := rfl
@[simp] theorem State.storeBytes_fb (s : State) (a : Nat) (bs : List Byte) : (s.storeBytes a bs).fb = s.fb := rfl
@[simp] theorem State.storeBytes_ir (s : State) (a : Nat) (bs : List Byte) : (s.storeBytes a bs).ir = s.ir := rfl
@[simp] theorem State.storeBytes_mem (s : State) (a : Nat) (bs : List Byte) : (s.storeBytes a bs).mem = s.mem.writeBytes a bs := rfl
@[simp] theorem State.storeBytes_fault (s : State) (a : Nat) (bs : List Byte) : (s.storeBytes a bs).fault = s.fault := rfl
@[simp] theorem State.storeBytes_font (s : State) (a : Nat) (bs : List Byte) : (s.storeBytes a bs).font = s.font := rfl
@[simp] theorem State.storeBytes_draws (s : State) (a : Nat) (bs : List Byte) : (s.storeBytes a bs).draws = s.draws := rfl
@[simp] theorem State.storeBytes_schedule (s : State) (a : Nat) (bs : List Byte) : (s.storeBytes a bs).schedule = s.schedule := rfl
@[simp] theorem State.storeBytes_boot (s : State) (a : Nat) (bs : List Byte) : (s.storeBytes a bs).boot = s.boot := rfl

/-! ### `State.loadRegsFrom` -/

@[simp] theorem State.loadRegsFrom_i (s : State) (a : Nat) (x : Reg) : (s.loadRegsFrom a x).i = s.i := rfl
@[simp] theorem State.loadRegsFrom_pc (s : State) (a : Nat) (x : Reg) : (s.loadRegsFrom a x).pc = s.pc := rfl
@[simp] theorem State.loadRegsFrom_sp (s : State) (a : Nat) (x : Reg) : (s.loadRegsFrom a x).sp = s.sp := rfl
@[simp] theorem State.loadRegsFrom_stack (s : State) (a : Nat) (x : Reg) : (s.loadRegsFrom a x).stack = s.stack := rfl
@[simp] theorem State.loadRegsFrom_dt (s : State) (a : Nat) (x : Reg) : (s.loadRegsFrom a x).dt = s.dt := rfl
@[simp] theorem State.loadRegsFrom_st (s : State) (a : Nat) (x : Reg) : (s.loadRegsFrom a x).st = s.st := rfl
@[simp] theorem State.loadRegsFrom_key (s : State) (a : Nat) (x : Reg) : (s.loadRegsFrom a x).key = s.key := rfl
@[simp] theorem State.loadRegsFrom_fb (s : State) (a : Nat) (x : Reg) : (s.loadRegsFrom a x).fb = s.fb := rfl
@[simp] theorem State.loadRegsFrom_ir (s : State) (a : Nat) (x : Reg) : (s.loadRegsFrom a x).ir = s.ir := rfl
@[simp] theorem State.loadRegsFrom_mem (s : State) (a : Nat) (x : Reg) : (s.loadRegsFrom a x).mem = s.mem := rfl
@[simp] theorem State.loadRegsFrom_fault (s : State) (a : Nat) (x : Reg) : (s.loadRegsFrom a x).fault = s.fault := rfl
@[simp] theorem State.loadRegsFrom_font (s : State) (a : Nat) (x : Reg) : (s.loadRegsFrom a x).font = s.font := rfl
@[simp] theorem State.loadRegsFrom_draws (s : State) (a : Nat) (x : Reg) : (s.loadRegsFrom a x).draws = s.draws := rfl
@[simp] theorem State.loadRegsFrom_schedule (s : State) (a : Nat) (x : Reg) : (s.loadRegsFrom a x).schedule = s.schedule := rfl
@[simp] theorem State.loadRegsFrom_boot (s : State) (a : Nat) (x : Reg) : (s.loadRegsFrom a x).boot = s.boot := rfl

/-! ### `State.jump` -/

@[simp] theorem State.jump_v (s : State) (a : Word) : (s.jump a).v = s.v := rfl
@[simp] theorem State.jump_i (s : State) (a : Word) : (s.jump a).i = s.i := rfl
@[simp] theorem State.jump_pc (s : State) (a : Word) : (s.jump a).pc = a := rfl
@[simp] theorem State.jump_sp (s : State) (a : Word) : (s.jump a).sp = s.sp := rfl
@[simp] theorem State.jump_stack (s : State) (a : Word) : (s.jump a).stack = s.stack := rfl
@[simp] theorem State.jump_dt (s : State) (a : Word) : (s.jump a).dt = s.dt := rfl
@[simp] theorem State.jump_st (s : State) (a : Word) : (s.jump a).st = s.st := rfl
@[simp] theorem State.jump_key (s : State) (a : Word) : (s.jump a).key = s.key := rfl
@[simp] theorem State.jump_fb (s : State) (a : Word) : (s.jump a).fb = s.fb := rfl
@[simp] theorem State.jump_ir (s : State) (a : Word) : (s.jump a).ir = s.ir := rfl
@[simp] theorem State.jump_mem (s : State) (a : Word) : (s.jump a).mem = s.mem := rfl
@[simp] theorem State.jump_fault (s : State) (a : Word) : (s.jump a).fault = s.fault := rfl
@[simp] theorem State.jump_font (s : State) (a : Word) : (s.jump a).font = s.font := rfl
@[simp] theorem State.jump_draws (s : State) (a : Word) : (s.jump a).draws = s.draws := rfl
@[simp] theorem State.jump_schedule (s : State) (a : Word) : (s.jump a).schedule = s.schedule := rfl
@[simp] theorem State.jump_boot (s : State) (a : Word) : (s.jump a).boot = s.boot := rfl

/-! ### `State.advance` -/

@[simp] theorem State.advance_v (s : State) (w : Word) : (s.advance w).v = s.v := rfl
@[simp] theorem State.advance_i (s : State) (w : Word) : (s.advance w).i = s.i := rfl
@[simp] theorem State.advance_pc (s : State) (w : Word) : (s.advance w).pc = s.pc + 2#16 := rfl
@[simp] theorem State.advance_sp (s : State) (w : Word) : (s.advance w).sp = s.sp := rfl
@[simp] theorem State.advance_stack (s : State) (w : Word) : (s.advance w).stack = s.stack := rfl
@[simp] theorem State.advance_dt (s : State) (w : Word) : (s.advance w).dt = s.dt := rfl
@[simp] theorem State.advance_st (s : State) (w : Word) : (s.advance w).st = s.st := rfl
@[simp] theorem State.advance_key (s : State) (w : Word) : (s.advance w).key = s.key := rfl
@[simp] theorem State.advance_fb (s : State) (w : Word) : (s.advance w).fb = s.fb := rfl
@[simp] theorem State.advance_ir (s : State) (w : Word) : (s.advance w).ir = w := rfl
@[simp] theorem State.advance_mem (s : State) (w : Word) : (s.advance w).mem = s.mem := rfl
@[simp] theorem State.advance_fault (s : State) (w : Word) : (s.advance w).fault = s.fault := rfl
@[simp] theorem State.advance_font (s : State) (w : Word) : (s.advance w).font = s.font := rfl
@[simp] theorem State.advance_draws (s : State) (w : Word) : (s.advance w).draws = s.draws := rfl
@[simp] theorem State.advance_schedule (s : State) (w : Word) : (s.advance w).schedule = s.schedule := rfl
@[simp] theorem State.advance_boot (s : State) (w : Word) : (s.advance w).boot = s.boot := rfl

/-! ### `State.takeFault` -/

@[simp] theorem State.takeFault_v (s : State) (r : FaultRecord) : (s.takeFault r).v = s.v := rfl
@[simp] theorem State.takeFault_i (s : State) (r : FaultRecord) : (s.takeFault r).i = s.i := rfl
@[simp] theorem State.takeFault_pc (s : State) (r : FaultRecord) : (s.takeFault r).pc = s.pc := rfl
@[simp] theorem State.takeFault_sp (s : State) (r : FaultRecord) : (s.takeFault r).sp = s.sp := rfl
@[simp] theorem State.takeFault_stack (s : State) (r : FaultRecord) : (s.takeFault r).stack = s.stack := rfl
@[simp] theorem State.takeFault_dt (s : State) (r : FaultRecord) : (s.takeFault r).dt = s.dt := rfl
@[simp] theorem State.takeFault_st (s : State) (r : FaultRecord) : (s.takeFault r).st = s.st := rfl
@[simp] theorem State.takeFault_key (s : State) (r : FaultRecord) : (s.takeFault r).key = s.key := rfl
@[simp] theorem State.takeFault_fb (s : State) (r : FaultRecord) : (s.takeFault r).fb = s.fb := rfl
@[simp] theorem State.takeFault_ir (s : State) (r : FaultRecord) : (s.takeFault r).ir = s.ir := rfl
@[simp] theorem State.takeFault_mem (s : State) (r : FaultRecord) : (s.takeFault r).mem = s.mem := rfl
@[simp] theorem State.takeFault_fault (s : State) (r : FaultRecord) : (s.takeFault r).fault = some r := rfl
@[simp] theorem State.takeFault_font (s : State) (r : FaultRecord) : (s.takeFault r).font = s.font := rfl
@[simp] theorem State.takeFault_draws (s : State) (r : FaultRecord) : (s.takeFault r).draws = s.draws := rfl
@[simp] theorem State.takeFault_schedule (s : State) (r : FaultRecord) : (s.takeFault r).schedule = s.schedule := rfl
@[simp] theorem State.takeFault_boot (s : State) (r : FaultRecord) : (s.takeFault r).boot = s.boot := rfl

/-! ### `State.raise` -/

@[simp] theorem State.raise_v (s : State) (c : FaultCause) (n : Nat) : (s.raise c n).v = s.v := rfl
@[simp] theorem State.raise_i (s : State) (c : FaultCause) (n : Nat) : (s.raise c n).i = s.i := rfl
@[simp] theorem State.raise_pc (s : State) (c : FaultCause) (n : Nat) : (s.raise c n).pc = s.pc := rfl
@[simp] theorem State.raise_sp (s : State) (c : FaultCause) (n : Nat) : (s.raise c n).sp = s.sp := rfl
@[simp] theorem State.raise_stack (s : State) (c : FaultCause) (n : Nat) : (s.raise c n).stack = s.stack := rfl
@[simp] theorem State.raise_dt (s : State) (c : FaultCause) (n : Nat) : (s.raise c n).dt = s.dt := rfl
@[simp] theorem State.raise_st (s : State) (c : FaultCause) (n : Nat) : (s.raise c n).st = s.st := rfl
@[simp] theorem State.raise_key (s : State) (c : FaultCause) (n : Nat) : (s.raise c n).key = s.key := rfl
@[simp] theorem State.raise_fb (s : State) (c : FaultCause) (n : Nat) : (s.raise c n).fb = s.fb := rfl
@[simp] theorem State.raise_ir (s : State) (c : FaultCause) (n : Nat) : (s.raise c n).ir = s.ir := rfl
@[simp] theorem State.raise_mem (s : State) (c : FaultCause) (n : Nat) : (s.raise c n).mem = s.mem := rfl
@[simp] theorem State.raise_fault (s : State) (c : FaultCause) (n : Nat) : (s.raise c n).fault = some { cause := c, addr := s.pc - 2#16, word := some s.ir, info := n } := rfl
@[simp] theorem State.raise_font (s : State) (c : FaultCause) (n : Nat) : (s.raise c n).font = s.font := rfl
@[simp] theorem State.raise_draws (s : State) (c : FaultCause) (n : Nat) : (s.raise c n).draws = s.draws := rfl
@[simp] theorem State.raise_schedule (s : State) (c : FaultCause) (n : Nat) : (s.raise c n).schedule = s.schedule := rfl
@[simp] theorem State.raise_boot (s : State) (c : FaultCause) (n : Nat) : (s.raise c n).boot = s.boot := rfl

/-! ### `State.setKey` -/

@[simp] theorem State.setKey_v (s : State) (k : Fin 16) (b : Bool) : (s.setKey k b).v = s.v := rfl
@[simp] theorem State.setKey_i (s : State) (k : Fin 16) (b : Bool) : (s.setKey k b).i = s.i := rfl
@[simp] theorem State.setKey_pc (s : State) (k : Fin 16) (b : Bool) : (s.setKey k b).pc = s.pc := rfl
@[simp] theorem State.setKey_sp (s : State) (k : Fin 16) (b : Bool) : (s.setKey k b).sp = s.sp := rfl
@[simp] theorem State.setKey_stack (s : State) (k : Fin 16) (b : Bool) : (s.setKey k b).stack = s.stack := rfl
@[simp] theorem State.setKey_dt (s : State) (k : Fin 16) (b : Bool) : (s.setKey k b).dt = s.dt := rfl
@[simp] theorem State.setKey_st (s : State) (k : Fin 16) (b : Bool) : (s.setKey k b).st = s.st := rfl
@[simp] theorem State.setKey_key (s : State) (k : Fin 16) (b : Bool) : (s.setKey k b).key = s.key.set k b := rfl
@[simp] theorem State.setKey_fb (s : State) (k : Fin 16) (b : Bool) : (s.setKey k b).fb = s.fb := rfl
@[simp] theorem State.setKey_ir (s : State) (k : Fin 16) (b : Bool) : (s.setKey k b).ir = s.ir := rfl
@[simp] theorem State.setKey_mem (s : State) (k : Fin 16) (b : Bool) : (s.setKey k b).mem = s.mem := rfl
@[simp] theorem State.setKey_fault (s : State) (k : Fin 16) (b : Bool) : (s.setKey k b).fault = s.fault := rfl
@[simp] theorem State.setKey_font (s : State) (k : Fin 16) (b : Bool) : (s.setKey k b).font = s.font := rfl
@[simp] theorem State.setKey_draws (s : State) (k : Fin 16) (b : Bool) : (s.setKey k b).draws = s.draws := rfl
@[simp] theorem State.setKey_schedule (s : State) (k : Fin 16) (b : Bool) : (s.setKey k b).schedule = s.schedule := rfl
@[simp] theorem State.setKey_boot (s : State) (k : Fin 16) (b : Bool) : (s.setKey k b).boot = s.boot := rfl

/-! ### `State.timerDecay` -/

@[simp] theorem State.timerDecay_v (s : State) : s.timerDecay.v = s.v := rfl
@[simp] theorem State.timerDecay_i (s : State) : s.timerDecay.i = s.i := rfl
@[simp] theorem State.timerDecay_pc (s : State) : s.timerDecay.pc = s.pc := rfl
@[simp] theorem State.timerDecay_sp (s : State) : s.timerDecay.sp = s.sp := rfl
@[simp] theorem State.timerDecay_stack (s : State) : s.timerDecay.stack = s.stack := rfl
@[simp] theorem State.timerDecay_dt (s : State) : s.timerDecay.dt = decayed s.dt := rfl
@[simp] theorem State.timerDecay_st (s : State) : s.timerDecay.st = decayed s.st := rfl
@[simp] theorem State.timerDecay_key (s : State) : s.timerDecay.key = s.key := rfl
@[simp] theorem State.timerDecay_fb (s : State) : s.timerDecay.fb = s.fb := rfl
@[simp] theorem State.timerDecay_ir (s : State) : s.timerDecay.ir = s.ir := rfl
@[simp] theorem State.timerDecay_mem (s : State) : s.timerDecay.mem = s.mem := rfl
@[simp] theorem State.timerDecay_fault (s : State) : s.timerDecay.fault = s.fault := rfl
@[simp] theorem State.timerDecay_font (s : State) : s.timerDecay.font = s.font := rfl
@[simp] theorem State.timerDecay_draws (s : State) : s.timerDecay.draws = s.draws := rfl
@[simp] theorem State.timerDecay_schedule (s : State) : s.timerDecay.schedule = s.schedule := rfl
@[simp] theorem State.timerDecay_boot (s : State) : s.timerDecay.boot = s.boot := rfl

/-! ### `State.loadImage` -/

@[simp] theorem State.loadImage_v (s : State) (bs : List Byte) : (s.loadImage bs).v = s.v := rfl
@[simp] theorem State.loadImage_i (s : State) (bs : List Byte) : (s.loadImage bs).i = s.i := rfl
@[simp] theorem State.loadImage_pc (s : State) (bs : List Byte) : (s.loadImage bs).pc = s.pc := rfl
@[simp] theorem State.loadImage_sp (s : State) (bs : List Byte) : (s.loadImage bs).sp = s.sp := rfl
@[simp] theorem State.loadImage_stack (s : State) (bs : List Byte) : (s.loadImage bs).stack = s.stack := rfl
@[simp] theorem State.loadImage_dt (s : State) (bs : List Byte) : (s.loadImage bs).dt = s.dt := rfl
@[simp] theorem State.loadImage_st (s : State) (bs : List Byte) : (s.loadImage bs).st = s.st := rfl
@[simp] theorem State.loadImage_key (s : State) (bs : List Byte) : (s.loadImage bs).key = s.key := rfl
@[simp] theorem State.loadImage_fb (s : State) (bs : List Byte) : (s.loadImage bs).fb = s.fb := rfl
@[simp] theorem State.loadImage_ir (s : State) (bs : List Byte) : (s.loadImage bs).ir = s.ir := rfl
@[simp] theorem State.loadImage_mem (s : State) (bs : List Byte) : (s.loadImage bs).mem = s.mem.writeBytes Config.progOrigin bs := rfl
@[simp] theorem State.loadImage_fault (s : State) (bs : List Byte) : (s.loadImage bs).fault = s.fault := rfl
@[simp] theorem State.loadImage_font (s : State) (bs : List Byte) : (s.loadImage bs).font = s.font := rfl
@[simp] theorem State.loadImage_draws (s : State) (bs : List Byte) : (s.loadImage bs).draws = s.draws := rfl
@[simp] theorem State.loadImage_schedule (s : State) (bs : List Byte) : (s.loadImage bs).schedule = s.schedule := rfl
@[simp] theorem State.loadImage_boot (s : State) (bs : List Byte) : (s.loadImage bs).boot = .loaded := rfl

/-! ### `State.failLoad` -/

@[simp] theorem State.failLoad_v (s : State) : s.failLoad.v = s.v := rfl
@[simp] theorem State.failLoad_i (s : State) : s.failLoad.i = s.i := rfl
@[simp] theorem State.failLoad_pc (s : State) : s.failLoad.pc = s.pc := rfl
@[simp] theorem State.failLoad_sp (s : State) : s.failLoad.sp = s.sp := rfl
@[simp] theorem State.failLoad_stack (s : State) : s.failLoad.stack = s.stack := rfl
@[simp] theorem State.failLoad_dt (s : State) : s.failLoad.dt = s.dt := rfl
@[simp] theorem State.failLoad_st (s : State) : s.failLoad.st = s.st := rfl
@[simp] theorem State.failLoad_key (s : State) : s.failLoad.key = s.key := rfl
@[simp] theorem State.failLoad_fb (s : State) : s.failLoad.fb = s.fb := rfl
@[simp] theorem State.failLoad_ir (s : State) : s.failLoad.ir = s.ir := rfl
@[simp] theorem State.failLoad_mem (s : State) : s.failLoad.mem = s.mem := rfl
@[simp] theorem State.failLoad_fault (s : State) : s.failLoad.fault = s.fault := rfl
@[simp] theorem State.failLoad_font (s : State) : s.failLoad.font = s.font := rfl
@[simp] theorem State.failLoad_draws (s : State) : s.failLoad.draws = s.draws := rfl
@[simp] theorem State.failLoad_schedule (s : State) : s.failLoad.schedule = s.schedule := rfl
@[simp] theorem State.failLoad_boot (s : State) : s.failLoad.boot = .loadFailed := rfl

/-! ### `State.popAction` -/

@[simp] theorem State.popAction_v (s : State) : s.popAction.v = s.v := rfl
@[simp] theorem State.popAction_i (s : State) : s.popAction.i = s.i := rfl
@[simp] theorem State.popAction_pc (s : State) : s.popAction.pc = s.pc := rfl
@[simp] theorem State.popAction_sp (s : State) : s.popAction.sp = s.sp := rfl
@[simp] theorem State.popAction_stack (s : State) : s.popAction.stack = s.stack := rfl
@[simp] theorem State.popAction_dt (s : State) : s.popAction.dt = s.dt := rfl
@[simp] theorem State.popAction_st (s : State) : s.popAction.st = s.st := rfl
@[simp] theorem State.popAction_key (s : State) : s.popAction.key = s.key := rfl
@[simp] theorem State.popAction_fb (s : State) : s.popAction.fb = s.fb := rfl
@[simp] theorem State.popAction_ir (s : State) : s.popAction.ir = s.ir := rfl
@[simp] theorem State.popAction_mem (s : State) : s.popAction.mem = s.mem := rfl
@[simp] theorem State.popAction_fault (s : State) : s.popAction.fault = s.fault := rfl
@[simp] theorem State.popAction_font (s : State) : s.popAction.font = s.font := rfl
@[simp] theorem State.popAction_draws (s : State) : s.popAction.draws = s.draws := rfl
@[simp] theorem State.popAction_schedule (s : State) : s.popAction.schedule = s.schedule.tail := rfl
@[simp] theorem State.popAction_boot (s : State) : s.popAction.boot = s.boot := rfl

/-! ### `State.skipIf` -/

@[simp] theorem State.skipIf_v (s : State) (c : Bool) : (s.skipIf c).v = s.v := by cases c <;> rfl
@[simp] theorem State.skipIf_i (s : State) (c : Bool) : (s.skipIf c).i = s.i := by cases c <;> rfl
@[simp] theorem State.skipIf_pc (s : State) (c : Bool) : (s.skipIf c).pc = if c then s.pc + 2#16 else s.pc := by
  cases c <;> rfl
@[simp] theorem State.skipIf_sp (s : State) (c : Bool) : (s.skipIf c).sp = s.sp := by cases c <;> rfl
@[simp] theorem State.skipIf_stack (s : State) (c : Bool) : (s.skipIf c).stack = s.stack := by cases c <;> rfl
@[simp] theorem State.skipIf_dt (s : State) (c : Bool) : (s.skipIf c).dt = s.dt := by cases c <;> rfl
@[simp] theorem State.skipIf_st (s : State) (c : Bool) : (s.skipIf c).st = s.st := by cases c <;> rfl
@[simp] theorem State.skipIf_key (s : State) (c : Bool) : (s.skipIf c).key = s.key := by cases c <;> rfl
@[simp] theorem State.skipIf_fb (s : State) (c : Bool) : (s.skipIf c).fb = s.fb := by cases c <;> rfl
@[simp] theorem State.skipIf_ir (s : State) (c : Bool) : (s.skipIf c).ir = s.ir := by cases c <;> rfl
@[simp] theorem State.skipIf_mem (s : State) (c : Bool) : (s.skipIf c).mem = s.mem := by cases c <;> rfl
@[simp] theorem State.skipIf_fault (s : State) (c : Bool) : (s.skipIf c).fault = s.fault := by cases c <;> rfl
@[simp] theorem State.skipIf_font (s : State) (c : Bool) : (s.skipIf c).font = s.font := by cases c <;> rfl
@[simp] theorem State.skipIf_draws (s : State) (c : Bool) : (s.skipIf c).draws = s.draws := by cases c <;> rfl
@[simp] theorem State.skipIf_schedule (s : State) (c : Bool) : (s.skipIf c).schedule = s.schedule := by cases c <;> rfl
@[simp] theorem State.skipIf_boot (s : State) (c : Bool) : (s.skipIf c).boot = s.boot := by cases c <;> rfl

/-! ### Reads after an update -/

theorem State.reg_setReg (s : State) (x r : Reg) (b : Byte) : (s.setReg x b).reg r = if x = r then b else s.reg r := by
  simp only [State.reg, State.setReg_v, Fin.getElem_fin, Vector.getElem_set, Fin.ext_iff]

@[simp] theorem State.reg_setReg_self (s : State) (x : Reg) (b : Byte) : (s.setReg x b).reg x = b := by
  simp [State.reg_setReg]

/-- The flag wins when the destination is VF (R12). -/
theorem State.reg_setRegFlag (s : State) (x r : Reg) (b f : Byte) :
    (s.setRegFlag x b f).reg r = if r = vF then f else if r = x then b else s.reg r := by
  simp only [State.setRegFlag, State.reg_setReg, eq_comm (a := r)]

theorem State.reg_loadRegsFrom (s : State) (a : Nat) (x r : Reg) :
    (s.loadRegsFrom a x).reg r = if r.val ≤ x.val then s.readByte (a + r.val) else s.reg r := by
  simp [State.reg, State.loadRegsFrom]

/-- States with the same registers read the same registers. -/
theorem State.reg_congr {s t : State} (h : t.v = s.v) (r : Reg) : t.reg r = s.reg r := by simp only [State.reg, h]

/-- States with the same memory read the same bytes. -/
theorem State.readByte_congr {s t : State} (h : t.mem = s.mem) (a : Nat) : t.readByte a = s.readByte a := by
  simp only [State.readByte, h]

/-- States with the same framebuffer show the same pixels. -/
theorem State.pixel_congr {s t : State} (h : t.fb = s.fb) (x y : Nat) : t.pixel x y = s.pixel x y := by
  simp only [State.pixel, h]

end Sys2Proof.Machine
end

