-- ==== Sys2Proof/Laws/Memory.lean ====
section
/-! SUPPORT. MEM: a read after a write, and that every memory operation keeps the canonical form. -/

namespace Sys2Proof.Machine

/-! ### Reads -/

/-- An address no cell is at reads as unlisted. -/
theorem Memory.read_of_forall_ne {m : Memory} {a : Nat} (h : ∀ c ∈ m, c.1 ≠ a) : m.read a = Memory.unlisted a := by
  induction m with
  | nil => rfl
  | cons c m ih =>
    have hc : c.1 ≠ a := h c (by simp)
    simp only [Memory.read, if_neg hc]
    exact ih fun d hd => h d (by simp [hd])

theorem Memory.read_cell_append (m : Memory) (a b : Nat) (v : Byte) (h : b = a → ∀ c ∈ m, c.1 ≠ a) :
    (Memory.cell a v ++ m : Memory).read b = if b = a then v else m.read b := by
  by_cases hv : v = Memory.unlisted a
  · by_cases hb : b = a
    · subst hb
      simp [Memory.cell, hv, Memory.read_of_forall_ne (h rfl)]
    · simp [Memory.cell, hv, hb]
  · simp [Memory.cell, hv, Memory.read, eq_comm]

/-- R41, R43: a read gives the last write to its address, and "A write changes only the addressed byte". -/
theorem Memory.read_write {m : Memory} (h : m.Pairwise fun c d => c.1 < d.1) (a b : Nat) (v : Byte) :
    (m.write a v).read b = if b = a then v else m.read b := by
  induction m with
  | nil => simpa [Memory.write] using Memory.read_cell_append [] a b v (by simp)
  | cons c m ih =>
    obtain ⟨hc, hm⟩ := List.pairwise_cons.1 h
    unfold Memory.write
    split
    · next hlt =>
      refine Memory.read_cell_append (c :: m) a b v fun _ d hd => ?_
      rcases List.mem_cons.1 hd with rfl | hd
      · omega
      · have := hc d hd; omega
    · split
      · next heq =>
        rw [Memory.read_cell_append m a b v fun _ d hd => by have := hc d hd; omega]
        by_cases hb : b = a
        · simp [hb]
        · have hcb : c.1 ≠ b := by omega
          simp [hb, Memory.read, hcb]
      · next hne =>
        by_cases hcb : c.1 = b
        · have hb : b ≠ a := by omega
          simp [Memory.read, hcb, hb]
        · simp [Memory.read, hcb, ih hm]

theorem Memory.readBytes_length (m : Memory) (a n : Nat) : (m.readBytes a n).length = n := by
  simp [Memory.readBytes]

theorem Memory.readBytes_getElem (m : Memory) (a n k : Nat) (h : k < (m.readBytes a n).length) :
    (m.readBytes a n)[k] = m.read (a + k) := by
  simp [Memory.readBytes]

/-! ### The canonical form -/

theorem Memory.mem_cell {a : Nat} {v : Byte} {c : Host.Cell} (h : c ∈ Memory.cell a v) :
    c = (a, v) ∧ v ≠ Memory.unlisted a := by
  unfold Memory.cell at h
  split at h
  · simp at h
  · next hv => exact ⟨by simpa using h, hv⟩

theorem Memory.mem_write {m : Memory} {a : Nat} {v : Byte} {c : Host.Cell} (h : c ∈ m.write a v) :
    c ∈ m ∨ c = (a, v) ∧ v ≠ Memory.unlisted a := by
  induction m with
  | nil => exact .inr (Memory.mem_cell h)
  | cons d m ih =>
    unfold Memory.write at h
    split at h
    · rcases List.mem_append.1 h with h | h
      · exact .inr (Memory.mem_cell h)
      · exact .inl h
    · split at h
      · rcases List.mem_append.1 h with h | h
        · exact .inr (Memory.mem_cell h)
        · exact .inl (by simp [h])
      · rcases List.mem_cons.1 h with rfl | h
        · exact .inl (by simp)
        · rcases ih h with h | h
          · exact .inl (by simp [h])
          · exact .inr h

theorem Memory.pairwise_cell_append {m : Memory} {a : Nat} {v : Byte} (hm : m.Pairwise fun c d => c.1 < d.1)
    (ha : ∀ c ∈ m, a < c.1) : (Memory.cell a v ++ m : Memory).Pairwise fun c d => c.1 < d.1 := by
  refine List.pairwise_append.2 ⟨?_, hm, fun c hc d hd => ?_⟩
  · unfold Memory.cell; split <;> simp
  · rw [(Memory.mem_cell hc).1]; exact ha d hd

theorem Memory.pairwise_write {m : Memory} (h : m.Pairwise fun c d => c.1 < d.1) (a : Nat) (v : Byte) :
    (m.write a v).Pairwise fun c d => c.1 < d.1 := by
  induction m with
  | nil => simpa [Memory.write] using Memory.pairwise_cell_append (m := []) (a := a) (v := v) .nil (by simp)
  | cons c m ih =>
    obtain ⟨hc, hm⟩ := List.pairwise_cons.1 h
    unfold Memory.write
    split
    · next hlt =>
      refine Memory.pairwise_cell_append h fun d hd => ?_
      rcases List.mem_cons.1 hd with rfl | hd
      · exact hlt
      · have := hc d hd; omega
    · split
      · next heq => exact Memory.pairwise_cell_append hm fun d hd => by have := hc d hd; omega
      · next hne =>
        refine List.pairwise_cons.2 ⟨fun d hd => ?_, ih hm⟩
        rcases Memory.mem_write hd with hd | ⟨rfl, -⟩
        · exact hc d hd
        · simp only; omega

/-- A write inside the array keeps the canonical form. -/
theorem Memory.wf_write {m : Memory} (h : m.wf) {a : Nat} (ha : a < 4096) (v : Byte) : (m.write a v).wf := by
  refine ⟨Memory.pairwise_write h.1 a v, fun c hc => ?_⟩
  rcases Memory.mem_write hc with hc | ⟨rfl, hv⟩
  · exact h.2 c hc
  · exact ⟨ha, hv⟩

theorem Memory.pairwise_writeBytes {m : Memory} (h : m.Pairwise fun c d => c.1 < d.1) (a : Nat) (bs : List Byte) :
    (m.writeBytes a bs).Pairwise fun c d => c.1 < d.1 := by
  induction bs generalizing m a with
  | nil => exact h
  | cons b bs ih => exact ih (Memory.pairwise_write h a b) (a + 1)

/-- Bytes written inside the array keep the canonical form. -/
theorem Memory.wf_writeBytes {m : Memory} (h : m.wf) {a : Nat} {bs : List Byte} (ha : a + bs.length ≤ 4096) :
    (m.writeBytes a bs).wf := by
  induction bs generalizing m a with
  | nil => exact h
  | cons b bs ih =>
    simp only [List.length_cons] at ha
    exact ih (Memory.wf_write h (by omega) b) (by omega)

/-- After `bs` is written from `a` up, each of its addresses reads its byte and every other address reads as before. -/
theorem Memory.read_writeBytes {m : Memory} (h : m.Pairwise fun c d => c.1 < d.1) (a : Nat) (bs : List Byte) (b : Nat) :
    (m.writeBytes a bs).read b = if a ≤ b ∧ b < a + bs.length then bs.getD (b - a) 0#8 else m.read b := by
  induction bs generalizing m a with
  | nil =>
    have hb : ¬(a ≤ b ∧ b < a + ([] : List Byte).length) := by simp
    simp only [Memory.writeBytes, if_neg hb]
  | cons v bs ih =>
    simp only [Memory.writeBytes, ih (Memory.pairwise_write h a v) (a + 1), Memory.read_write h, List.length_cons]
    by_cases hb : b = a
    · subst hb
      simp
    · by_cases hin : a + 1 ≤ b ∧ b < a + 1 + bs.length
      · have hin' : a ≤ b ∧ b < a + (bs.length + 1) := by omega
        obtain ⟨k, rfl⟩ : ∃ k, b = a + 1 + k := ⟨b - (a + 1), by omega⟩
        rw [if_pos hin, if_pos hin', show a + 1 + k - (a + 1) = k by omega, show a + 1 + k - a = k + 1 by omega]
        simp
      · have hin' : ¬(a ≤ b ∧ b < a + (bs.length + 1)) := by omega
        rw [if_neg hin, if_neg hin', if_neg hb]

/-- Another address reads as before after a write, whatever the memory's form. -/
theorem Memory.read_write_ne (m : Memory) {a b : Nat} (hb : b ≠ a) (v : Byte) : (m.write a v).read b = m.read b := by
  have hcell : ∀ m : Memory, (Memory.cell a v ++ m : Memory).read b = m.read b := fun m => by
    rw [Memory.read_cell_append m a b v fun h => absurd h hb, if_neg hb]
  induction m with
  | nil => simpa [Memory.write] using hcell []
  | cons c m ih =>
    unfold Memory.write
    split
    · exact hcell _
    · split
      · next heq =>
        have hcb : c.1 ≠ b := by omega
        rw [hcell]
        simp only [Memory.read, if_neg hcb]
      · simp only [Memory.read, ih]

/-- Outside the bytes written, every address reads as before, whatever the memory's form. -/
theorem Memory.read_writeBytes_outside (m : Memory) {a b : Nat} {bs : List Byte}
    (hb : b < a ∨ a + bs.length ≤ b) : (m.writeBytes a bs).read b = m.read b := by
  induction bs generalizing m a with
  | nil => rfl
  | cons v bs ih =>
    simp only [List.length_cons] at hb
    rw [Memory.writeBytes, ih _ (by omega), Memory.read_write_ne _ (by omega)]

/-! ### The bounds check (R38, R100) -/

/-- The lowest address outside MEM of a block is its base when the base is outside, and otherwise 4096 (R100). -/
theorem firstOutOfBounds_eq (base n : Nat) :
    firstOutOfBounds base n = if n = 0 ∨ base + n ≤ 4096 then none else some (max base 4096) := by
  split
  · next h =>
    simp only [firstOutOfBounds, List.find?_eq_none, List.mem_map, List.mem_range, decide_eq_true_eq, Config.memSize]
    rintro _ ⟨k, hk, rfl⟩
    omega
  · next h =>
    have hn : n = (max base 4096 - base) + 1 + (n - (max base 4096 - base) - 1) := by omega
    rw [firstOutOfBounds, hn, List.range_add, List.map_append, List.find?_append, List.range_succ, List.map_append,
      List.find?_append]
    have hnone : ((List.range (max base 4096 - base)).map fun k => base + k).find?
        (fun a => decide (Config.memSize ≤ a)) = none := by
      simp only [List.find?_eq_none, List.mem_map, List.mem_range, decide_eq_true_eq, Config.memSize]
      rintro _ ⟨k, hk, rfl⟩
      omega
    have hlast : decide (Config.memSize ≤ base + (max base 4096 - base)) = true := by
      simp only [decide_eq_true_eq, Config.memSize]; omega
    simp only [hnone, List.map_cons, List.map_nil, List.find?_cons, hlast, Option.none_or, Option.some_or]
    congr 1
    omega

end Sys2Proof.Machine
end

