-- ==== Sys2Proof/Laws/Ops.lean ====
section
/-! SUPPORT. One lemma for each shared operation: everything it can do. -/

namespace Sys2Proof.Machine

/-! ### Call stack (R20) -/

theorem State.push_of_lt (s : State) (a : Word) (h : s.sp.val < 16) :
    s.push a = some { s with stack := s.stack.set s.sp.val a, sp := ⟨s.sp.val + 1, by omega⟩ } := by
  simp only [State.push, dif_pos h]

theorem State.push_of_full (s : State) (a : Word) (h : ¬s.sp.val < 16) : s.push a = none := by
  simp only [State.push, dif_neg h]

theorem State.popPc_of_pos (s : State) (h : 0 < s.sp.val) :
    s.popPc = some { s with sp := ⟨s.sp.val - 1, by omega⟩, pc := s.stack[s.sp.val - 1]'(by omega) } := by
  simp only [State.popPc, dif_pos h]

theorem State.popPc_of_empty (s : State) (h : ¬0 < s.sp.val) : s.popPc = none := by
  simp only [State.popPc, dif_neg h]

/-! ### Input latch -/

theorem State.keyAt_of_lt (s : State) (k : Byte) (j : Fin 16) (h : k.toNat = j.val) : s.keyAt k = some s.key[j] := by
  simp only [State.keyAt, h, j.isLt, dif_pos, Fin.getElem_fin]

theorem State.keyAt_of_gt (s : State) (k : Byte) (h : 15 < k.toNat) : s.keyAt k = none := by
  simp only [State.keyAt, dif_neg (show ¬k.toNat < 16 by omega)]

theorem State.leastKey_none (s : State) (h : ∀ k : Fin 16, s.key[k] = false) : s.leastKey = none := by
  simp only [State.leastKey, List.find?_eq_none, List.mem_finRange, forall_true_left]
  intro k
  simpa using h k

/-- The least latched key (R108). -/
theorem State.leastKey_some (s : State) (k : Fin 16) (hk : s.key[k] = true)
    (hlt : ∀ j : Fin 16, j.val < k.val → s.key[j] = false) : s.leastKey = some k := by
  cases hf : s.leastKey with
  | none =>
    rw [State.leastKey, List.find?_eq_none] at hf
    exact absurd hk (by simpa using hf k (List.mem_finRange k))
  | some j =>
    rw [State.leastKey, List.find?_eq_some_iff_getElem] at hf
    obtain ⟨hj, n, hn, hget, hbefore⟩ := hf
    simp only [List.getElem_finRange] at hget
    have hjn : j.val = n := by rw [← hget]; rfl
    have hnk : ¬k.val < n := fun hlt' => by
      have := hbefore k.val hlt'
      simp only [List.getElem_finRange] at this
      exact absurd hk (by simpa using this)
    have hkj : ¬j.val < k.val := fun hlt' => by
      have hj' : s.key[j] = true := hj
      exact absurd (hlt j hlt') (by rw [hj']; simp)
    rw [Option.some.injEq]
    apply Fin.ext
    omega

/-! ### Checks (R10, R38, R100) -/

theorem State.checked_of_inside (s t : State) {n : Nat} (h : n = 0 ∨ s.i.toNat + n ≤ 4096) : s.checked n t = .next t := by
  simp only [State.checked, firstOutOfBounds_eq, if_pos h]

theorem State.checked_of_outside (s t : State) {n : Nat} (hn : n ≠ 0) (h : 4096 < s.i.toNat + n) :
    s.checked n t = .next (s.raise .memoryBounds (max s.i.toNat 4096)) := by
  have hne : ¬(n = 0 ∨ s.i.toNat + n ≤ 4096) := by omega
  simp only [State.checked, firstOutOfBounds_eq, if_neg hne]

/-! ### Framebuffer -/

theorem Framebuffer.pixel_toggle (fb : Framebuffer) {px py : Nat} (hx : px < 64) (hy : py < 32) (x y : Nat) :
    Framebuffer.pixel (Framebuffer.toggle fb px py) x y =
      (Framebuffer.pixel fb x y != decide (x = px ∧ y = py)) := by
  unfold Framebuffer.pixel Framebuffer.toggle
  by_cases h : y < 32
  · simp only [h, hy, dif_pos, Vector.getElem_set]
    by_cases hyy : py = y
    · subst hyy
      simp [BitVec.getLsbD_xor, BitVec.getLsbD_twoPow, hx, eq_comm]
    · simp [hyy, Ne.symm hyy]
  · have hne : ¬y = py := by omega
    simp [h, hne]

/-- Outside the framebuffer every pixel reads false. -/
theorem Framebuffer.pixel_outside (fb : Framebuffer) {x y : Nat} (h : ¬(x < 64 ∧ y < 32)) :
    Framebuffer.pixel fb x y = false := by
  unfold Framebuffer.pixel
  split
  · exact BitVec.getLsbD_of_ge _ _ (by omega)
  · rfl

/-- Framebuffers that show the same pixels are equal. -/
theorem Framebuffer.ext_pixel {fb gb : Framebuffer}
    (h : ∀ x y : Nat, x < 64 → y < 32 → Framebuffer.pixel fb x y = Framebuffer.pixel gb x y) : fb = gb := by
  refine Vector.ext fun y hy => BitVec.eq_of_getLsbD_eq fun x hx => ?_
  simpa only [Framebuffer.pixel, dif_pos hy] using h x y hx hy

theorem Canvas.plot_pixel (cv : Canvas) (px py x y : Nat) :
    Framebuffer.pixel (cv.plot px py).fb x y =
      (Framebuffer.pixel cv.fb x y != decide (px < 64 ∧ py < 32 ∧ x = px ∧ y = py)) := by
  unfold Canvas.plot
  split
  · next h => simp [Framebuffer.pixel_toggle cv.fb h.1 h.2, show px < 64 from h.1, show py < 32 from h.2]
  · next h =>
    have hne : ¬(px < 64 ∧ py < 32 ∧ x = px ∧ y = py) := fun hc => h ⟨hc.1, hc.2.1⟩
    simp [hne]

theorem Canvas.plot_hit (cv : Canvas) (px py : Nat) :
    (cv.plot px py).hit = (cv.hit || Framebuffer.pixel cv.fb px py) := by
  unfold Canvas.plot
  split
  · rfl
  · next h => simp [Framebuffer.pixel_outside cv.fb h]

/-- A row drawn up to column `n`: which pixels are toggled, and whether one of them was on. -/
theorem Canvas.foldl_plot (b : Byte) (x0 py n : Nat) (cv : Canvas) :
    let after := (List.range n).foldl (fun cv c => if b.getLsbD (7 - c) then cv.plot (x0 + c) py else cv) cv
    (∀ x y : Nat, Framebuffer.pixel after.fb x y = (Framebuffer.pixel cv.fb x y !=
      decide (x < 64 ∧ y < 32 ∧ y = py ∧ x0 ≤ x ∧ x < x0 + n ∧ b.getLsbD (7 - (x - x0)) = true))) ∧
    (after.hit = true ↔ cv.hit = true ∨
      ∃ c, c < n ∧ b.getLsbD (7 - c) = true ∧ Framebuffer.pixel cv.fb (x0 + c) py = true) := by
  induction n with
  | zero =>
    refine ⟨fun x y => ?_, by simp⟩
    have hne : ¬(x < 64 ∧ y < 32 ∧ y = py ∧ x0 ≤ x ∧ x < x0 + 0 ∧ b.getLsbD (7 - (x - x0)) = true) := by omega
    simp only [List.range_zero, List.foldl_nil, hne, decide_false, Bool.bne_false]
  | succ n ih =>
    obtain ⟨ihp, ihh⟩ := ih
    simp only [List.range_succ, List.foldl_append, List.foldl_cons, List.foldl_nil]
    generalize (List.range n).foldl (fun cv c => if b.getLsbD (7 - c) then cv.plot (x0 + c) py else cv) cv = mid at *
    by_cases hb : b.getLsbD (7 - n) = true
    · simp only [hb, if_true]
      refine ⟨fun x y => ?_, ?_⟩
      · rw [Canvas.plot_pixel, ihp, Bool.bne_assoc]
        congr 1
        by_cases hx : x = x0 + n
        · subst hx
          rw [decide_eq_false (show ¬(x0 + n < 64 ∧ y < 32 ∧ y = py ∧ x0 ≤ x0 + n ∧ x0 + n < x0 + n ∧
            b.getLsbD (7 - (x0 + n - x0)) = true) by omega), Bool.false_bne, decide_eq_decide,
            show x0 + n - x0 = n by omega]
          constructor
          · rintro ⟨h1, h2, -, rfl⟩; exact ⟨h1, h2, rfl, by omega, by omega, hb⟩
          · rintro ⟨h1, h2, rfl, -⟩; exact ⟨h1, h2, rfl, rfl⟩
        · rw [decide_eq_false (show ¬(x0 + n < 64 ∧ py < 32 ∧ x = x0 + n ∧ y = py) from fun h => hx h.2.2.1),
            Bool.bne_false, decide_eq_decide]
          constructor
          · rintro ⟨h1, h2, h3, h4, h5, h6⟩; exact ⟨h1, h2, h3, h4, by omega, h6⟩
          · rintro ⟨h1, h2, h3, h4, h5, h6⟩; exact ⟨h1, h2, h3, h4, by omega, h6⟩
      · rw [Canvas.plot_hit, Bool.or_eq_true, ihh, ihp,
          decide_eq_false (show ¬(x0 + n < 64 ∧ py < 32 ∧ py = py ∧ x0 ≤ x0 + n ∧ x0 + n < x0 + n ∧
            b.getLsbD (7 - (x0 + n - x0)) = true) by omega), Bool.bne_false]
        constructor
        · rintro ((h | ⟨c, hc, hcb, hcp⟩) | h)
          · exact .inl h
          · exact .inr ⟨c, by omega, hcb, hcp⟩
          · exact .inr ⟨n, by omega, hb, h⟩
        · rintro (h | ⟨c, hc, hcb, hcp⟩)
          · exact .inl (.inl h)
          · by_cases hcn : c = n
            · subst hcn; exact .inr hcp
            · exact .inl (.inr ⟨c, by omega, hcb, hcp⟩)
    · simp only [hb]
      refine ⟨fun x y => ?_, ?_⟩
      · rw [if_neg (by simp), ihp]
        congr 1
        rw [decide_eq_decide]
        constructor
        · rintro ⟨h1, h2, h3, h4, h5, h6⟩; exact ⟨h1, h2, h3, h4, by omega, h6⟩
        · rintro ⟨h1, h2, h3, h4, h5, h6⟩
          refine ⟨h1, h2, h3, h4, ?_, h6⟩
          by_contra hge
          have hx : x - x0 = n := by omega
          exact hb (hx ▸ h6)
      · rw [if_neg (by simp), ihh]
        constructor
        · rintro (h | ⟨c, hc, hcb, hcp⟩)
          · exact .inl h
          · exact .inr ⟨c, by omega, hcb, hcp⟩
        · rintro (h | ⟨c, hc, hcb, hcp⟩)
          · exact .inl h
          · by_cases hcn : c = n
            · subst hcn; exact absurd hcb hb
            · exact .inr ⟨c, by omega, hcb, hcp⟩

/-- A drawn row toggles the pixels its set bits fall on, inside the framebuffer. -/
theorem Canvas.drawRow_pixel (cv : Canvas) (b : Byte) (x0 py x y : Nat) :
    Framebuffer.pixel (cv.drawRow b x0 py).fb x y = (Framebuffer.pixel cv.fb x y !=
      decide (x < 64 ∧ y < 32 ∧ y = py ∧ x0 ≤ x ∧ x < x0 + 8 ∧ b.getLsbD (7 - (x - x0)) = true)) :=
  (Canvas.foldl_plot b x0 py 8 cv).1 x y

/-- A drawn row collides when one of its set bits falls on a pixel that is on. -/
theorem Canvas.drawRow_hit (cv : Canvas) (b : Byte) (x0 py : Nat) :
    (cv.drawRow b x0 py).hit = true ↔ cv.hit = true ∨
      ∃ c, c < 8 ∧ b.getLsbD (7 - c) = true ∧ Framebuffer.pixel cv.fb (x0 + c) py = true :=
  (Canvas.foldl_plot b x0 py 8 cv).2

/-- Drawn rows toggle the pixels their set bits fall on, inside the framebuffer. -/
theorem Canvas.drawRows_pixel (cv : Canvas) (rows : List Byte) (x0 py x y : Nat) :
    Framebuffer.pixel (cv.drawRows rows x0 py).fb x y = (Framebuffer.pixel cv.fb x y !=
      decide (x < 64 ∧ y < 32 ∧ x0 ≤ x ∧ x < x0 + 8 ∧ py ≤ y ∧ y < py + rows.length ∧
        (rows.getD (y - py) 0#8).getLsbD (7 - (x - x0)) = true)) := by
  induction rows generalizing cv py with
  | nil =>
    have hne : ¬(x < 64 ∧ y < 32 ∧ x0 ≤ x ∧ x < x0 + 8 ∧ py ≤ y ∧ y < py + ([] : List Byte).length ∧
        (([] : List Byte).getD (y - py) 0#8).getLsbD (7 - (x - x0)) = true) := by
      simp only [List.length_nil]; omega
    simp only [Canvas.drawRows, hne, decide_false, Bool.bne_false]
  | cons b rows ih =>
    rw [Canvas.drawRows, ih, Canvas.drawRow_pixel, Bool.bne_assoc]
    congr 1
    rw [Bool.eq_iff_iff]
    simp only [bne_iff_ne, ne_eq, decide_eq_decide, decide_eq_true_eq, List.length_cons]
    rcases Nat.lt_trichotomy y py with hy | rfl | hy
    · simp only [show ¬y = py by omega, show ¬py ≤ y by omega, show ¬py + 1 ≤ y by omega, false_and, and_false,
        iff_self, not_true_eq_false]
    · simp only [show ¬y + 1 ≤ y by omega, Nat.sub_self, List.getD_cons_zero, false_and, and_false, iff_false, not_not,
        le_refl, true_and]
      constructor
      · rintro ⟨h1, h2, h3, h4, h5⟩; exact ⟨h1, h2, h3, h4, by omega, h5⟩
      · rintro ⟨h1, h2, h3, h4, -, h5⟩; exact ⟨h1, h2, h3, h4, h5⟩
    · obtain ⟨k, rfl⟩ : ∃ k, y = py + 1 + k := ⟨y - (py + 1), by omega⟩
      simp only [show ¬py + 1 + k = py by omega, false_and, and_false, false_iff, not_not,
        show py + 1 + k - (py + 1) = k by omega, show py + 1 + k - py = k + 1 by omega, List.getD_cons_succ]
      constructor
      · rintro ⟨h1, h2, h3, h4, h5, h6, h7⟩; exact ⟨h1, h2, h3, h4, by omega, by omega, h7⟩
      · rintro ⟨h1, h2, h3, h4, h5, h6, h7⟩; exact ⟨h1, h2, h3, h4, by omega, by omega, h7⟩

/-- Drawn rows collide when one of their set bits falls on a pixel that was on before the first of them. -/
theorem Canvas.drawRows_hit (cv : Canvas) (rows : List Byte) (x0 py : Nat) :
    (cv.drawRows rows x0 py).hit = true ↔ cv.hit = true ∨
      ∃ r c, r < rows.length ∧ c < 8 ∧ (rows.getD r 0#8).getLsbD (7 - c) = true ∧
        Framebuffer.pixel cv.fb (x0 + c) (py + r) = true := by
  induction rows generalizing cv py with
  | nil => simp [Canvas.drawRows]
  | cons b rows ih =>
    have hbelow : ∀ r c, Framebuffer.pixel (cv.drawRow b x0 py).fb (x0 + c) (py + 1 + r) =
        Framebuffer.pixel cv.fb (x0 + c) (py + 1 + r) := fun r c => by
      have hne : ¬(x0 + c < 64 ∧ py + 1 + r < 32 ∧ py + 1 + r = py ∧ x0 ≤ x0 + c ∧ x0 + c < x0 + 8 ∧
          b.getLsbD (7 - (x0 + c - x0)) = true) := by omega
      rw [Canvas.drawRow_pixel]
      simp only [hne, decide_false, Bool.bne_false]
    rw [Canvas.drawRows, ih, Canvas.drawRow_hit]
    simp only [hbelow, List.length_cons]
    constructor
    · rintro ((h | ⟨c, hc, hb, hp⟩) | ⟨r, c, hr, hc, hb, hp⟩)
      · exact .inl h
      · exact .inr ⟨0, c, by omega, hc, by simpa using hb, by simpa using hp⟩
      · exact .inr ⟨r + 1, c, by omega, hc, by simpa using hb, by rw [show py + (r + 1) = py + 1 + r by omega]; exact hp⟩
    · rintro (h | ⟨r, c, hr, hc, hb, hp⟩)
      · exact .inl (.inl h)
      · cases r with
        | zero => exact .inl (.inr ⟨c, hc, by simpa using hb, by simpa using hp⟩)
        | succ r =>
          exact .inr ⟨r, c, by omega, hc, by simpa using hb, by rw [show py + 1 + r = py + (r + 1) by omega]; exact hp⟩

/-! ### Bytes and registers moved as a block -/

theorem State.regsUpTo_length (s : State) (x : Reg) : (s.regsUpTo x).length = x.val + 1 := by
  simp only [State.regsUpTo, List.length_take, Vector.length_toList]
  omega

theorem State.regsUpTo_getD (s : State) (x k : Reg) (h : k.val ≤ x.val) : (s.regsUpTo x).getD k.val 0#8 = s.reg k := by
  have hk : k.val < (s.regsUpTo x).length := by rw [State.regsUpTo_length]; omega
  rw [List.getD_eq_getElem _ _ hk]
  simp [State.regsUpTo, State.reg]

/-! ### The FONT parameter -/

/-- `State.reset` is the reset state for the default FONT. -/
theorem resetWith_defaultFont : State.resetWith defaultFontBytes = State.reset := by decide

/-- Reset memory is in canonical form. -/
theorem reset_wf : State.reset.mem.wf := by decide

end Sys2Proof.Machine
end

