-- ==== Sys2Proof/Laws/PerInstr.lean ====
section
/-! SUPPORT. What holds of every instruction as syntax, one lemma for each constructor: its encoding matches its own row of
the opcode map (R54). -/

namespace Sys2Proof.Laws.EncodeRow

/-- The instruction's encoding matches its row of R54. -/
def Statement (i : Instr) : Prop := rowMatches i.row (encode i) = true

theorem cls : Statement .cls := rfl
theorem ret : Statement .ret := rfl
theorem jp (nnn : Addr12) : Statement (.jp nnn) := wordA_row _ _ _ (by decide)
theorem call (nnn : Addr12) : Statement (.call nnn) := wordA_row _ _ _ (by decide)
theorem seByte (x : Reg) (kk : Byte) : Statement (.seByte x kk) := wordXK_row_op _ _ _ _ (by decide)
theorem sneByte (x : Reg) (kk : Byte) : Statement (.sneByte x kk) := wordXK_row_op _ _ _ _ (by decide)
theorem seReg (x y : Reg) : Statement (.seReg x y) := wordXY_row _ _ _ _ _ (by decide)
theorem ldByte (x : Reg) (kk : Byte) : Statement (.ldByte x kk) := wordXK_row_op _ _ _ _ (by decide)
theorem addByte (x : Reg) (kk : Byte) : Statement (.addByte x kk) := wordXK_row_op _ _ _ _ (by decide)
theorem ldReg (x y : Reg) : Statement (.ldReg x y) := wordXY_row _ _ _ _ _ (by decide)
theorem orReg (x y : Reg) : Statement (.orReg x y) := wordXY_row _ _ _ _ _ (by decide)
theorem andReg (x y : Reg) : Statement (.andReg x y) := wordXY_row _ _ _ _ _ (by decide)
theorem xorReg (x y : Reg) : Statement (.xorReg x y) := wordXY_row _ _ _ _ _ (by decide)
theorem addReg (x y : Reg) : Statement (.addReg x y) := wordXY_row _ _ _ _ _ (by decide)
theorem subReg (x y : Reg) : Statement (.subReg x y) := wordXY_row _ _ _ _ _ (by decide)
theorem shr (x y : Reg) : Statement (.shr x y) := wordXY_row _ _ _ _ _ (by decide)
theorem subnReg (x y : Reg) : Statement (.subnReg x y) := wordXY_row _ _ _ _ _ (by decide)
theorem shl (x y : Reg) : Statement (.shl x y) := wordXY_row _ _ _ _ _ (by decide)
theorem sneReg (x y : Reg) : Statement (.sneReg x y) := wordXY_row _ _ _ _ _ (by decide)
theorem ldI (nnn : Addr12) : Statement (.ldI nnn) := wordA_row _ _ _ (by decide)
theorem jpV0 (nnn : Addr12) : Statement (.jpV0 nnn) := wordA_row _ _ _ (by decide)
theorem rnd (x : Reg) (kk : Byte) : Statement (.rnd x kk) := wordXK_row_op _ _ _ _ (by decide)
theorem drw (x y : Reg) (n : Nat) : Statement (.drw x y n) := wordXY_row_op _ _ _ _ _ (by decide)
theorem skp (x : Reg) : Statement (.skp x) := wordXK_row _ _ _ _ (by decide)
theorem sknp (x : Reg) : Statement (.sknp x) := wordXK_row _ _ _ _ (by decide)
theorem ldVxDt (x : Reg) : Statement (.ldVxDt x) := wordXK_row _ _ _ _ (by decide)
theorem ldVxK (x : Reg) : Statement (.ldVxK x) := wordXK_row _ _ _ _ (by decide)
theorem ldDtVx (x : Reg) : Statement (.ldDtVx x) := wordXK_row _ _ _ _ (by decide)
theorem ldStVx (x : Reg) : Statement (.ldStVx x) := wordXK_row _ _ _ _ (by decide)
theorem addI (x : Reg) : Statement (.addI x) := wordXK_row _ _ _ _ (by decide)
theorem ldF (x : Reg) : Statement (.ldF x) := wordXK_row _ _ _ _ (by decide)
theorem ldB (x : Reg) : Statement (.ldB x) := wordXK_row _ _ _ _ (by decide)
theorem storeRegs (x : Reg) : Statement (.storeRegs x) := wordXK_row _ _ _ _ (by decide)
theorem loadRegs (x : Reg) : Statement (.loadRegs x) := wordXK_row _ _ _ _ (by decide)

end Sys2Proof.Laws.EncodeRow
end

