-- ==== Sys2Proof/Laws/Step.lean ====
section
/-! SUPPORT. What the shared endings of the meanings, a cycle and a step can answer, each said once. -/

namespace Sys2Proof.Machine

/-! ### The checks' answers -/

theorem State.checked_cases {s t u : State} {n : Nat} (h : s.checked n t = .next u) :
    u = t ∨ ∃ a, u = s.raise .memoryBounds a := by
  unfold State.checked at h
  split at h
  · next a _ => injection h with h; exact .inr ⟨a, h.symm⟩
  · injection h with h; exact .inl h.symm

theorem State.checked_next (s t : State) (n : Nat) : ∃ u, s.checked n t = .next u := by
  unfold State.checked
  split <;> exact ⟨_, rfl⟩

theorem State.skipIfKey_cases {s u : State} {x : Reg} {b : Bool} (h : s.skipIfKey x b = .next u) :
    (∃ c, u = s.skipIf c) ∨ u = s.raise .keyIndex (s.reg x).toNat := by
  unfold State.skipIfKey at h
  split at h
  · injection h with h; exact .inl ⟨_, h.symm⟩
  · injection h with h; exact .inr h.symm

theorem State.skipIfKey_next (s : State) (x : Reg) (b : Bool) : ∃ u, s.skipIfKey x b = .next u := by
  unfold State.skipIfKey
  split <;> exact ⟨_, rfl⟩

theorem State.orRaise_cases {s u : State} {c : FaultCause} {t : Option State} (h : s.orRaise c t = .next u) :
    t = some u ∨ (t = none ∧ u = s.raise c s.sp.val) := by
  unfold State.orRaise at h
  split at h
  · injection h with h; exact .inl (by rw [h])
  · injection h with h; exact .inr ⟨rfl, h.symm⟩

theorem State.orRaise_next (s : State) (c : FaultCause) (t : Option State) : ∃ u, s.orRaise c t = .next u := by
  unfold State.orRaise
  split <;> exact ⟨_, rfl⟩

/-! ### Every handler answers a next state -/

/-- No handler stops the machine: a fault is a next state (log entry 3). -/
theorem exec_next (i : Instr) (s : State) : ∃ t, exec i s = .next t := by
  cases i with
  | ret => exact s.orRaise_next _ _
  | call nnn => exact s.orRaise_next _ _
  | skp x => exact s.skipIfKey_next _ _
  | sknp x => exact s.skipIfKey_next _ _
  | ldVxK x =>
    simp only [exec, execLdVxK]
    split <;> exact ⟨_, rfl⟩
  | drw x y n => exact s.checked_next _ _
  | ldB x => exact s.checked_next _ _
  | storeRegs x => exact s.checked_next _ _
  | loadRegs x => exact s.checked_next _ _
  | _ => exact ⟨_, rfl⟩

/-- No handler writes what is the host's or the machine's: FONT, the host's coming actions and the boot phase. -/
theorem exec_keeps_host_fields {i : Instr} {s t : State} (h : exec i s = .next t) :
    t.font = s.font ∧ t.schedule = s.schedule ∧ t.boot = s.boot := by
  cases i with
  | ret =>
    rcases State.orRaise_cases h with h | ⟨_, rfl⟩
    · simp only [State.popPc] at h
      split at h
      · injection h with h; subst h; exact ⟨rfl, rfl, rfl⟩
      · cases h
    · exact ⟨rfl, rfl, rfl⟩
  | call nnn =>
    rcases State.orRaise_cases h with h | ⟨_, rfl⟩
    · simp only [State.push, Option.map_eq_some_iff] at h
      split at h
      · obtain ⟨u, hu, rfl⟩ := h
        injection hu with hu
        subst hu
        exact ⟨rfl, rfl, rfl⟩
      · simp at h
    · exact ⟨rfl, rfl, rfl⟩
  | skp x => rcases State.skipIfKey_cases h with ⟨c, rfl⟩ | rfl <;> simp
  | sknp x => rcases State.skipIfKey_cases h with ⟨c, rfl⟩ | rfl <;> simp
  | ldVxK x => simp only [exec, execLdVxK] at h; split at h <;> (injection h with h; subst h; exact ⟨rfl, rfl, rfl⟩)
  | drw x y n => rcases State.checked_cases h with rfl | ⟨a, rfl⟩ <;> exact ⟨rfl, rfl, rfl⟩
  | loadRegs x => rcases State.checked_cases h with rfl | ⟨a, rfl⟩ <;> exact ⟨rfl, rfl, rfl⟩
  | ldB x => rcases State.checked_cases h with rfl | ⟨a, rfl⟩ <;> exact ⟨rfl, rfl, rfl⟩
  | storeRegs x => rcases State.checked_cases h with rfl | ⟨a, rfl⟩ <;> exact ⟨rfl, rfl, rfl⟩
  | seByte x kk => injection h with h; subst h; simp
  | sneByte x kk => injection h with h; subst h; simp
  | seReg x y => injection h with h; subst h; simp
  | sneReg x y => injection h with h; subst h; simp
  | _ => injection h with h; subst h; exact ⟨rfl, rfl, rfl⟩

/-! ### The end of a cycle -/

theorem endCycle_of_fault (s0 : State) {t : State} {r : FaultRecord} (h : t.fault = some r) :
    endCycle s0 (.next t) = .next (s0.takeFault r) := by
  simp only [endCycle, h]

theorem endCycle_of_none (s0 : State) {t : State} (h : t.fault = none) : endCycle s0 (.next t) = .next t := by
  simp only [endCycle, h]

/-! ### A cycle -/

/-- What a cycle can do: nothing, on a faulted core; take a fault; or run a handler that faults not. -/
theorem cycle_cases {s u : State} (h : cycle s = .next u) :
    (s.fault ≠ none ∧ u = s) ∨
    (s.fault = none ∧ ∃ r, u = s.takeFault r) ∨
    (s.fault = none ∧ ∃ w i, s.fetch = .word w ∧ decodeWord w = .ok i ∧ exec i (s.advance w) = .next u ∧
      u.fault = none) := by
  unfold cycle at h
  split at h
  · next hf => injection h with h; exact .inl ⟨by simp [hf], h.symm⟩
  · next hf =>
    split at h
    · next w hw =>
      unfold runWord at h
      split at h
      · next i hi =>
        obtain ⟨t, ht⟩ := exec_next i (s.advance w)
        rw [ht] at h
        cases hft : t.fault with
        | some r =>
          rw [endCycle_of_fault s hft] at h
          injection h with h
          exact .inr (.inl ⟨hf, r, h.symm⟩)
        | none =>
          rw [endCycle_of_none s hft] at h
          injection h with h
          subst h
          exact .inr (.inr ⟨hf, w, i, hw, hi, ht, hft⟩)
      · injection h with h; exact .inr (.inl ⟨hf, _, h.symm⟩)
    · injection h with h; exact .inr (.inl ⟨hf, _, h.symm⟩)

/-- A Cycle that the host requests and that answers a next state is a cycle of a core with a program loaded. -/
theorem requestCycle_cases {s u : State} (h : requestCycle s = .next u) : s.boot = .loaded ∧ cycle s = .next u := by
  unfold requestCycle at h
  split at h
  · next hl => exact ⟨hl, h⟩
  · cases h
  · cases h

theorem requestCycle_of_loaded {s : State} (h : s.boot = .loaded) : requestCycle s = cycle s := by
  simp only [requestCycle, h]

/-- A Cycle before a successful Load is refused. -/
theorem requestCycle_of_not_loaded {s : State} (h : s.boot ≠ .loaded) :
    requestCycle s = .refused .noProgramLoaded := by
  unfold requestCycle
  split
  · next hl => exact absurd hl h
  · rfl
  · rfl

/-- Load answers a next state only on a state just produced by Reset: a good image is copied, and a bad one is not. -/
theorem load_cases {s u : State} {image : Option (List Byte)} (h : load image s = .next u) :
    s.justReset = true ∧
      ((∃ bytes, image = some bytes ∧ imageLoads bytes = true ∧ u = s.loadImage bytes) ∨
        u = s.failLoad) := by
  unfold load at h
  split at h
  · next hr =>
    split at h
    · next bytes =>
      split at h
      · next hl => injection h with h; exact ⟨hr, .inl ⟨bytes, rfl, hl, h.symm⟩⟩
      · injection h with h; exact ⟨hr, .inr h.symm⟩
    · injection h with h; exact ⟨hr, .inr h.symm⟩
  · cases h

theorem State.justReset_iff (s : State) : s.justReset = true ↔ s = s.hostReset := by
  simp only [State.justReset, decide_eq_true_eq]

end Sys2Proof.Machine
end

