-- ==== Sys2Proof/Tests/Slice0.lean ====
section
/-! SUPPORT. Tests of the model: the decoding of a word of every row, the ill-formed terms, one step per instruction with
the expected result of a vector of 95_test_vectors.md (its id in the comment), and for every statement with hypotheses a
concrete case that meets them. -/

namespace Sys2Proof.Tests

open Sys2Proof Sys2Proof.Machine

/-! ### Well-formed instructions (R52) -/

theorem test_wf_drw_fifteen_rows : Instr.wf (.drw 0 1 15) = true := by decide

theorem test_wf_refuses_drw_sixteen_rows : Instr.wf (.drw 0 1 16) = false := by decide

/-! ### Decoding: every row of R54, its word written out from the pattern -/

theorem test_decode_family_0 :
    decodeWord 0b0000000011100000#16 = .ok .cls ∧ decodeWord 0b0000000011101110#16 = .ok .ret := by decide

/-- CY6, CY7: SYS forms and a set bit in 11..8 are rejected, by name. -/
theorem test_decode_rejects_family_0 :
    decodeWord 0x0123#16 = .error (.unrecognized 0x0123#16) ∧
    decodeWord 0x01E0#16 = .error (.unrecognized 0x01E0#16) := by decide

theorem test_decode_addresses :
    decodeWord 0b0001001000110100#16 = .ok (.jp 0x234#12) ∧
    decodeWord 0b0010001100000000#16 = .ok (.call 0x300#12) ∧
    decodeWord 0b1010001011110000#16 = .ok (.ldI 0x2F0#12) ∧
    decodeWord 0b1011001000010000#16 = .ok (.jpV0 0x210#12) := by decide

theorem test_decode_immediates :
    decodeWord 0b0011001101000010#16 = .ok (.seByte 3 0x42#8) ∧
    decodeWord 0b0100001101000010#16 = .ok (.sneByte 3 0x42#8) ∧
    decodeWord 0b0110000000001010#16 = .ok (.ldByte 0 0x0A#8) ∧
    decodeWord 0b0111001000000011#16 = .ok (.addByte 2 0x03#8) ∧
    decodeWord 0b1100001100001111#16 = .ok (.rnd 3 0x0F#8) := by decide

theorem test_decode_families_5_and_9 :
    decodeWord 0b0101000100100000#16 = .ok (.seReg 1 2) ∧
    decodeWord 0b1001000100100000#16 = .ok (.sneReg 1 2) := by decide

/-- CF10, CF11c: a low nibble that is not 0. -/
theorem test_decode_rejects_families_5_and_9 :
    decodeWord 0x5121#16 = .error (.unrecognized 0x5121#16) ∧
    decodeWord 0x9121#16 = .error (.unrecognized 0x9121#16) := by decide

theorem test_decode_family_8 :
    decodeWord 0b1000000100100000#16 = .ok (.ldReg 1 2) ∧
    decodeWord 0b1000000100100001#16 = .ok (.orReg 1 2) ∧
    decodeWord 0b1000000100100010#16 = .ok (.andReg 1 2) ∧
    decodeWord 0b1000000100100011#16 = .ok (.xorReg 1 2) ∧
    decodeWord 0b1000000000010100#16 = .ok (.addReg 0 1) ∧
    decodeWord 0b1000000100100101#16 = .ok (.subReg 1 2) ∧
    decodeWord 0b1000000100100110#16 = .ok (.shr 1 2) ∧
    decodeWord 0b1000000100100111#16 = .ok (.subnReg 1 2) ∧
    decodeWord 0b1000000100101110#16 = .ok (.shl 1 2) := by decide

/-- AL18, AL18b. -/
theorem test_decode_rejects_family_8 :
    decodeWord 0x8018#16 = .error (.unrecognized 0x8018#16) ∧
    decodeWord 0x801F#16 = .error (.unrecognized 0x801F#16) := by decide

theorem test_decode_family_D : decodeWord 0b1101101010110101#16 = .ok (.drw 10 11 5) := by decide

theorem test_decode_family_E :
    decodeWord 0b1110010110011110#16 = .ok (.skp 5) ∧ decodeWord 0b1110010110100001#16 = .ok (.sknp 5) := by decide

theorem test_decode_family_F :
    decodeWord 0b1111000100000111#16 = .ok (.ldVxDt 1) ∧
    decodeWord 0b1111001000001010#16 = .ok (.ldVxK 2) ∧
    decodeWord 0b1111000100010101#16 = .ok (.ldDtVx 1) ∧
    decodeWord 0b1111000100011000#16 = .ok (.ldStVx 1) ∧
    decodeWord 0b1111001000011110#16 = .ok (.addI 2) ∧
    decodeWord 0b1111000100101001#16 = .ok (.ldF 1) ∧
    decodeWord 0b1111000100110011#16 = .ok (.ldB 1) ∧
    decodeWord 0b1111001001010101#16 = .ok (.storeRegs 2) ∧
    decodeWord 0b1111001001100101#16 = .ok (.loadRegs 2) := by decide

/-- TI5, IM10. -/
theorem test_decode_rejects_families_E_and_F :
    decodeWord 0xE5A2#16 = .error (.unrecognized 0xE5A2#16) ∧
    decodeWord 0xF156#16 = .error (.unrecognized 0xF156#16) := by decide

/-- The table's numbering is the word itself: bit 0 is the least significant bit of the one word. -/
theorem test_decodeTableWord : decodeTableWord 16 0xFF65 = some (.loadRegs 15) ∧ decodeTableWord 16 0x0000 = none := by
  decide

/-- R34: the byte at the lower address is the high byte. -/
theorem test_decodeBytes_big_endian :
    decodeBytes [0x60#8, 0x0A#8, 0x61#8] = .ok (.ldByte 0 0x0A#8, [0x61#8]) := by decide

/-! ### One step -/

/-- The next state of a step. -/
def nextOf : Result → Option State
  | .next t => some t
  | .fault _ => none
  | .refused _ => none

/-- One step on the word `w`, placed where `s` fetches. -/
def after (s : State) (w : Nat) : Option State := nextOf (step (s.withFetchWord 16 w))

/-- One host action. -/
def host (s : State) (a : HostAction) : Option State := nextOf (step { s with schedule := [a] })

/-- The reset state, with a program counted as loaded, so that a Cycle may be performed. -/
def booted : State := { State.reset with boot := .loaded }

/-- The reset state with some registers set. -/
def withRegs : List (Reg × Byte) → State
  | [] => State.reset
  | p :: ps => (withRegs ps).setReg p.1 p.2

/-- The pixels that are on in the top `rows` rows, as (column, row). -/
def litPixels (s : State) (rows : Nat) : List (Nat × Nat) :=
  (List.range rows).flatMap fun y => ((List.range 64).filter fun x => s.pixel x y).map fun x => (x, y)

/-! #### The cycle -/

/-- CY2: a fetch whose second byte is outside MEM. -/
theorem test_fetch_at_the_last_byte :
    (nextOf (step { booted with pc := 0xFFF#16 })).map (fun t => (t.pc, t.ir, t.fault)) =
      some (0xFFF#16, 0#16, some ⟨.memoryBounds, 0xFFF#16, none, 0x1000⟩) := by decide

/-- CY4, CY9: an odd PC, and the last word of MEM. -/
theorem test_fetch_at_odd_and_last_word :
    (after { State.reset with pc := 0x215#16 } 0x6007).map (fun t => (t.reg 0, t.pc)) = some (7#8, 0x217#16) ∧
    (after { State.reset with pc := 0xFFE#16 } 0x6001).map (fun t => (t.reg 0, t.pc)) = some (1#8, 0x1000#16) := by
  decide

/-- CY6: PC and IR stay. -/
theorem test_undefined_word_faults :
    (after State.reset 0x0123).map (fun t => (t.pc, t.ir, t.fault)) =
      some (0x200#16, 0#16, some ⟨.decode, 0x200#16, some 0x0123#16, 0x0123⟩) := by decide

/-- CY8. -/
theorem test_faulted_core_stands_still :
    (nextOf (step { booted with fault := some ⟨.decode, 0x200#16, some 0#16, 0⟩ })) =
      some { booted with fault := some ⟨.decode, 0x200#16, some 0#16, 0⟩ } := by decide

/-! #### Control transfer and skips -/

/-- CF1. -/
theorem test_jp : (after State.reset 0x1234).map (·.pc) = some 0x234#16 := by decide

/-- CF3: the pushed address is the one after the CALL. -/
theorem test_call : (after State.reset 0x2300).map (fun t => (t.pc, t.sp, t.stack[0])) =
    some (0x300#16, 1, 0x202#16) := by decide

/-- CF4: nothing is written. -/
theorem test_call_overflow : (after { State.reset with sp := 16 } 0x2300).map (fun t => (t.pc, t.sp, t.fault)) =
    some (0x200#16, 16, some ⟨.stackOverflow, 0x200#16, some 0x2300#16, 16⟩) := by decide

/-- CF5: the popped slot keeps its value. -/
theorem test_ret :
    (after { State.reset with pc := 0x300#16, sp := 1, stack := State.reset.stack.set 0 0x202#16 } 0x00EE).map
      (fun t => (t.pc, t.sp, t.stack[0])) = some (0x202#16, 0, 0x202#16) := by decide

/-- CF6. -/
theorem test_ret_underflow : (after State.reset 0x00EE).map (fun t => (t.pc, t.fault)) =
    some (0x200#16, some ⟨.stackUnderflow, 0x200#16, some 0x00EE#16, 0⟩) := by decide

/-- CF7, CF7b. -/
theorem test_se_byte : (after (withRegs [(3, 0x42#8)]) 0x3342).map (·.pc) = some 0x204#16 ∧
    (after (withRegs [(3, 0x41#8)]) 0x3342).map (·.pc) = some 0x202#16 := by decide

/-- CF8, CF8b. -/
theorem test_sne_byte : (after (withRegs [(3, 0x42#8)]) 0x4342).map (·.pc) = some 0x202#16 ∧
    (after State.reset 0x4342).map (·.pc) = some 0x204#16 := by decide

/-- CF9; and the rule's false branch. -/
theorem test_se_reg : (after (withRegs [(1, 7#8), (2, 7#8)]) 0x5120).map (·.pc) = some 0x204#16 ∧
    (after (withRegs [(1, 7#8), (2, 8#8)]) 0x5120).map (·.pc) = some 0x202#16 := by decide

/-- CF11, CF11b. -/
theorem test_sne_reg : (after (withRegs [(1, 7#8), (2, 8#8)]) 0x9120).map (·.pc) = some 0x204#16 ∧
    (after (withRegs [(1, 7#8)]) 0x9110).map (·.pc) = some 0x202#16 := by decide

/-- CF12b, CF12c: no wrap at 0x1000, and V0 whatever bits 11..8 hold. -/
theorem test_jp_v0 : (after (withRegs [(0, 0xFF#8)]) 0xBFFF).map (·.pc) = some 0x10FE#16 ∧
    (after (withRegs [(0, 1#8), (3, 0x50#8)]) 0xB300).map (·.pc) = some 0x301#16 := by decide

/-- CF13, CF13c. -/
theorem test_skp :
    (after { withRegs [(5, 0x0A#8)] with key := State.reset.key.set 10 true } 0xE59E).map (·.pc) = some 0x204#16 ∧
    (after (withRegs [(5, 0x10#8)]) 0xE59E).map (·.fault) =
      some (some ⟨.keyIndex, 0x200#16, some 0xE59E#16, 0x10⟩) := by decide

/-- CF14, CF14b. -/
theorem test_sknp : (after (withRegs [(5, 0x0A#8)]) 0xE5A1).map (·.pc) = some 0x204#16 ∧
    (after { withRegs [(5, 0x0A#8)] with key := State.reset.key.set 10 true } 0xE5A1).map (·.pc) =
      some 0x202#16 := by decide

/-! #### Arithmetic and logic -/

/-- AL1. -/
theorem test_ld_byte : (after State.reset 0x6A7F).map (fun t => (t.reg 10, t.pc)) = some (0x7F#8, 0x202#16) := by decide

/-- AL2, AL2b: no flag. -/
theorem test_add_byte : (after (withRegs [(2, 0xFE#8), (15, 0x55#8)]) 0x7203).map (fun t => (t.reg 2, t.reg 15)) =
      some (1#8, 0x55#8) ∧
    (after (withRegs [(15, 0xFF#8)]) 0x7F01).map (·.reg 15) = some 0#8 := by decide

/-- AL3. -/
theorem test_ld_reg : (after (withRegs [(1, 0x33#8)]) 0x8010).map (·.reg 0) = some 0x33#8 := by decide

/-- AL4: VF stays. -/
theorem test_or : (after (withRegs [(0, 0xF0#8), (1, 0x0F#8), (15, 0x55#8)]) 0x8011).map
    (fun t => (t.reg 0, t.reg 15)) = some (0xFF#8, 0x55#8) := by decide

/-- AL5. -/
theorem test_and : (after (withRegs [(0, 0xF0#8), (1, 0x3C#8)]) 0x8012).map (·.reg 0) = some 0x30#8 := by decide

/-- AL6, AL6b. -/
theorem test_xor : (after (withRegs [(0, 0xF0#8), (1, 0x3C#8)]) 0x8013).map (·.reg 0) = some 0xCC#8 ∧
    (after (withRegs [(0, 0x5A#8)]) 0x8003).map (·.reg 0) = some 0#8 := by decide

/-- AL7, AL7b. -/
theorem test_add_carry : (after (withRegs [(0, 0xFF#8), (1, 1#8)]) 0x8014).map (fun t => (t.reg 0, t.reg 15)) =
      some (0#8, 1#8) ∧
    (after (withRegs [(0, 0x80#8), (1, 0x7F#8)]) 0x8014).map (fun t => (t.reg 0, t.reg 15)) =
      some (0xFF#8, 0#8) := by decide

/-- AL8, AL9: the flag wins when x is VF; the old VF is the addend when y is VF. -/
theorem test_add_vf : (after (withRegs [(15, 0x10#8), (0, 0x20#8)]) 0x8F04).map (·.reg 15) = some 0#8 ∧
    (after (withRegs [(0, 1#8), (15, 0xFF#8)]) 0x80F4).map (fun t => (t.reg 0, t.reg 15)) = some (0#8, 1#8) := by
  decide

/-- AL11b, AL11c: the comparison is strict; the difference wraps. -/
theorem test_sub : (after (withRegs [(0, 5#8), (1, 5#8)]) 0x8015).map (fun t => (t.reg 0, t.reg 15)) =
      some (0#8, 0#8) ∧
    (after (withRegs [(1, 1#8)]) 0x8015).map (fun t => (t.reg 0, t.reg 15)) = some (0xFF#8, 0#8) := by decide

/-- AL11, AL12. -/
theorem test_sub_flag : (after (withRegs [(0, 0x10#8), (1, 1#8)]) 0x8015).map (fun t => (t.reg 0, t.reg 15)) =
      some (0x0F#8, 1#8) ∧
    (after (withRegs [(15, 0x10#8), (0, 1#8)]) 0x8F05).map (·.reg 15) = some 1#8 := by decide

/-- AL13c, AL14: y is ignored; the flag wins. -/
theorem test_shr : (after (withRegs [(4, 5#8), (5, 0xFF#8)]) 0x8456).map (fun t => (t.reg 4, t.reg 15)) =
      some (2#8, 1#8) ∧
    (after (withRegs [(15, 3#8)]) 0x8F06).map (·.reg 15) = some 1#8 := by decide

/-- AL15, AL15b. -/
theorem test_subn : (after (withRegs [(0, 1#8), (1, 0x10#8)]) 0x8017).map (fun t => (t.reg 0, t.reg 15)) =
      some (0x0F#8, 1#8) ∧
    (after (withRegs [(0, 0x10#8), (1, 1#8)]) 0x8017).map (fun t => (t.reg 0, t.reg 15)) = some (0xF1#8, 0#8) := by
  decide

/-- AL16, AL17. -/
theorem test_shl : (after (withRegs [(4, 0x81#8)]) 0x840E).map (fun t => (t.reg 4, t.reg 15)) = some (2#8, 1#8) ∧
    (after (withRegs [(15, 0x80#8)]) 0x8F0E).map (·.reg 15) = some 1#8 := by decide

/-- AL19b: kk = 0 gives 0 whatever the draw. -/
theorem test_rnd_zero_mask : (after State.reset 0xC300).map (·.reg 3) = some 0#8 := by
  have h : ∀ b : Byte, b &&& 0#8 = 0#8 := by decide
  exact congrArg some (h _)

/-- Each execution takes a fresh draw (R6): the count goes up. -/
theorem test_rnd_counts_draws : (after State.reset 0xC30F).map (fun t => (t.draws, t.pc)) = some (1, 0x202#16) := by
  decide

/-! #### Index register and memory -/

/-- IM1. -/
theorem test_ld_i : (after State.reset 0xA2F0).map (·.i) = some 0x2F0#16 := by decide

/-- IM2b, IM2c: the sum wraps at 65536 and not at 4096; VF stays (IM2). -/
theorem test_add_i :
    (after { withRegs [(2, 1#8), (15, 0x55#8)] with i := 0xFFFF#16 } 0xF21E).map (fun t => (t.i, t.reg 15)) =
      some (0#16, 0x55#8) ∧
    (after { withRegs [(2, 1#8)] with i := 0x0FFF#16 } 0xF21E).map (fun t => (t.i, t.fault)) =
      some (0x1000#16, none) := by decide

/-- IM3b, IM3c. -/
theorem test_ld_f : (after (withRegs [(1, 0x1A#8)]) 0xF129).map (·.i) = some 0x082#16 ∧
    (after (withRegs [(1, 0x0F#8)]) 0xF129).map (·.i) = some 0x09B#16 := by decide

/-- IM4. -/
theorem test_ld_b : (after { withRegs [(1, 157#8)] with i := 0x300#16 } 0xF133).map
    (fun t => (t.mem.readBytes 0x300 3, t.i)) = some ([1#8, 5#8, 7#8], 0x300#16) := by decide

/-- IM5: nothing is written. -/
theorem test_ld_b_outside : (after { withRegs [(1, 157#8)] with i := 0xFFE#16 } 0xF133).map
    (fun t => (t.mem.readBytes 0xFFE 2, t.fault)) =
      some ([0#8, 0#8], some ⟨.memoryBounds, 0x200#16, some 0xF133#16, 0x1000⟩) := by decide

/-- IM6: I stays. -/
theorem test_store_regs : (after { withRegs [(0, 1#8), (1, 2#8), (2, 3#8), (3, 4#8)] with i := 0x300#16 } 0xF255).map
    (fun t => (t.mem.readBytes 0x300 4, t.i)) = some ([1#8, 2#8, 3#8, 0#8], 0x300#16) := by decide

/-- IM7. -/
theorem test_store_regs_outside : (after { State.reset with i := 0xFF5#16 } 0xFF55).map (·.fault) =
    some (some ⟨.memoryBounds, 0x200#16, some 0xFF55#16, 0x1000⟩) := by decide

/-- IM8, with a register above x left alone. -/
theorem test_load_regs :
    (after { withRegs [(3, 0x77#8)] with i := 0x300#16, mem := [(0x300, 1#8), (0x301, 2#8), (0x302, 3#8)] } 0xF265).map
      (fun t => (t.v.toList.take 4, t.i)) = some ([1#8, 2#8, 3#8, 0x77#8], 0x300#16) := by decide

/-- IM8b: VF is loaded as an ordinary register. -/
theorem test_load_regs_vf : (after { State.reset with i := 0x300#16, mem := [(0x30F, 0x99#8)] } 0xFF65).map
    (·.reg 15) = some 0x99#8 := by decide

/-- R37: MEM keeps one canonical form; writing what an unlisted address reads as removes the cell. -/
theorem test_memory_write_is_canonical :
    Memory.write (Memory.write [] 0x300 7#8) 0x300 0#8 = [] ∧ Memory.write [] 0x050 0xF0#8 = [] ∧
    Memory.write [(0x300, 7#8)] 0x200 1#8 = [(0x200, 1#8), (0x300, 7#8)] := by decide

/-! #### Timers and the key wait -/

/-- TI1. -/
theorem test_ld_vx_dt : (after { State.reset with dt := 0x3C#8 } 0xF107).map (·.reg 1) = some 0x3C#8 := by decide

/-- TI4: the instruction runs again. -/
theorem test_key_wait_repeats : (after (withRegs [(2, 0x77#8)]) 0xF20A).map (fun t => (t.pc, t.reg 2)) =
    some (0x200#16, 0x77#8) := by decide

/-- TI4b: the least key. -/
theorem test_key_wait_loads : (after { State.reset with key := (State.reset.key.set 9 true).set 3 true } 0xF20A).map
    (fun t => (t.reg 2, t.pc)) = some (3#8, 0x202#16) := by decide

/-- TI2. -/
theorem test_ld_dt : (after (withRegs [(1, 60#8)]) 0xF115).map (fun t => (t.dt, t.st)) = some (60#8, 0#8) := by decide

/-- TI3. -/
theorem test_ld_st : (after (withRegs [(1, 10#8)]) 0xF118).map (fun t => (t.st, t.dt)) = some (10#8, 0#8) := by decide

/-! #### Graphics -/

/-- G1: VF stays. -/
theorem test_cls : (after { withRegs [(15, 0x55#8)] with fb := State.reset.fb.set 3 5#64 } 0x00E0).map
    (fun t => (t.fb, t.reg 15)) = some (State.reset.fb, 0x55#8) := by decide

/-- G2: glyph 0 of the default FONT. -/
theorem test_drw_glyph : (after { State.reset with i := 0x050#16 } 0xD015).map (fun t => (litPixels t 6, t.reg 15)) =
    some ([(0, 0), (1, 0), (2, 0), (3, 0), (0, 1), (3, 1), (0, 2), (3, 2), (0, 3), (3, 3),
      (0, 4), (1, 4), (2, 4), (3, 4)], 0#8) := by decide

/-- G4, G5: the origin wraps; the right edge clips. -/
theorem test_drw_wraps_origin_and_clips :
    (after { withRegs [(0, 70#8), (1, 33#8)] with i := 0x300#16, mem := [(0x300, 0x80#8)] } 0xD011).map
      (fun t => (litPixels t 3, t.reg 15)) = some ([(6, 1)], 0#8) ∧
    (after { withRegs [(0, 60#8)] with i := 0x300#16, mem := [(0x300, 0xFF#8)] } 0xD011).map
      (fun t => (litPixels t 3, t.reg 15)) = some ([(60, 0), (61, 0), (62, 0), (63, 0)], 0#8) := by decide

/-! #### The host's actions -/

/-- TI6, TI2b, TI2c. -/
theorem test_host_polls :
    (host State.reset (.setKey 7 true)).map (·.key.toList) =
      some [false, false, false, false, false, false, false, true, false, false, false, false, false, false, false,
        false] ∧
    (host { State.reset with dt := 60#8 } .timerDecay).map (fun t => (t.dt, t.st)) = some (59#8, 0#8) := by decide

/-- R130: Reset on a faulted core. -/
theorem test_host_reset : host { withRegs [(1, 7#8)] with fault := some ⟨.decode, 0#16, none, 0⟩ } .reset =
    some State.reset := by decide

/-- O57; R5, R128: Reset of a machine with another FONT seeds that FONT. -/
theorem test_host_reset_seeds_the_font :
    (host { State.resetWith (Vector.replicate 80 7#8) with mem := [] } .reset).map
      (fun t => (t.readByte 0x04F, t.readByte 0x050, t.readByte 0x09F, t.readByte 0x0A0)) =
        some (0#8, 7#8, 7#8, 0#8) := by decide

/-- R131. -/
theorem test_host_load : (host State.reset (.load (some [0x60#8, 0x0A#8]))).map
    (fun t => (t.mem.readBytes 0x1FF 4, t.boot)) = some ([0#8, 0x60#8, 0x0A#8, 0#8], .loaded) := by decide

/-- R133: Load, then a Cycle (W10's first instruction). -/
theorem test_boot_order_runs :
    ((host State.reset (.load (some [0x60#8, 0x0A#8]))).bind (nextOf ∘ step)).map (fun t => (t.reg 0, t.pc)) =
      some (0x0A#8, 0x202#16) := by decide

/-- R77, R133: no Cycle on a bare reset state, nor after failed Load, Reset; and no second Load, of zeros or not. -/
theorem test_boot_order_refuses :
    host State.reset .cycle = none ∧
    ((host State.reset (.load none)).bind fun t => (host t .reset).bind fun u => host u .cycle) = none ∧
    ((host State.reset (.load (some [0#8]))).bind fun t => host t (.load (some [1#8]))) = none := by decide

/-- R132: an empty image. -/
theorem test_host_bad_load : (host State.reset (.load (some []))).map (fun t => (t.mem, t.boot, nextOf (step t))) =
    some ([], .loadFailed, none) := by decide

/-- R132: after a failed Load a Reset leads back to where a Load is awaited. -/
theorem test_reset_forgets_a_failed_load :
    host { State.reset with boot := .loadFailed } .reset = some State.reset := by decide

/-! ### Witnesses: for each statement with hypotheses, a case that meets them all, each clause at a boundary -/

/-- The reset state with the host's next action given. -/
def toDo (a : HostAction) : State := { State.reset with schedule := [a] }

/-- The reset state with a word in place. -/
def atWord (w : Nat) : State := State.reset.withFetchWord 16 w

/-- O1. -/
theorem witness_DecodeOfEncodeIsTheInstruction :
    Instr.wf (.drw 15 15 15) = true ∧ encode (.drw 15 15 15) = 0xDFFF#16 ∧ Instr.wf (.shr 4 5) = true := by decide

/-- O2, O3. -/
theorem witness_EncodeOfDecodeIsTheWord :
    decodeWord 0x8456#16 = .ok (.shr 4 5) ∧ (Instr.shr 4 5).row = (0xF00F#16, 0x8006#16) ∧
    (0xF00F#16, 0x8006#16) ∈ opcodeMap ∧ rowMatches (0xF00F#16, 0x8006#16) 0x8456#16 = true := by decide

/-- O5: undefined words at the ends of R60's ranges, and their defined neighbours. -/
theorem witness_UndefinedWord :
    (UndefinedWord 0x0000#16 ∧ UndefinedWord 0x0FFF#16 ∧ UndefinedWord 0x5001#16 ∧ UndefinedWord 0x8FFF#16 ∧
      UndefinedWord 0x9FFF#16 ∧ UndefinedWord 0xE000#16 ∧ UndefinedWord 0xFFFF#16) ∧
    ¬UndefinedWord 0x00E0#16 ∧ ¬UndefinedWord 0x1000#16 ∧ ¬UndefinedWord 0x5000#16 ∧ ¬UndefinedWord 0x800E#16 ∧
    ¬UndefinedWord 0xEFA1#16 ∧ ¬UndefinedWord 0xFF65#16 := by
  refine ⟨⟨?_, ?_, ?_, ?_, ?_, ?_, ?_⟩, ?_, ?_, ?_, ?_, ?_, ?_⟩ <;> (unfold UndefinedWord; decide)

/-- O7: a word in the last two bytes of MEM that runs, and one whose handler faults. -/
theorem witness_StepRunsTheDecodedInstruction :
    (∃ s : State, s.runsCycle ∧ s.fault = none ∧ s.pc.toNat + 1 = 4095 ∧
      decodeWord (concatBytes (s.readByte s.pc.toNat) (s.readByte (s.pc.toNat + 1))) = .ok (.ldByte 0 1#8) ∧
      (nextOf (exec (.ldByte 0 1#8) { s with ir := wordAtPc s, pc := s.pc + 2#16, schedule := s.schedule.tail })).map
        (·.fault) = some none) ∧
    (∃ s : State, s.runsCycle ∧ s.fault = none ∧ s.pc.toNat + 1 < 4096 ∧
      decodeWord (concatBytes (s.readByte s.pc.toNat) (s.readByte (s.pc.toNat + 1))) = .ok .ret ∧
      (nextOf (exec .ret { s with ir := wordAtPc s, pc := s.pc + 2#16, schedule := s.schedule.tail })).map
        (·.fault.isSome) = some true) :=
  ⟨⟨({ booted with pc := 0xFFE#16 } : State).withFetchWord 16 0x6001, by decide⟩, ⟨atWord 0x00EE, by decide⟩⟩

/-- O8: each clause at its boundary. -/
theorem witness_FetchOutsideMemoryFaults :
    (∃ s : State, s.runsCycle ∧ s.fault = none ∧ s.pc.toNat = 4096) ∧
    (∃ s : State, s.runsCycle ∧ s.fault = none ∧ s.pc.toNat = 0xFFF) ∧
    (∃ s : State, s.runsCycle ∧ s.fault = none ∧ s.pc.toNat + 1 = 0xFFF ∧ s.fetch = .word 0#16) :=
  ⟨⟨{ booted with pc := 0x1000#16 }, by decide⟩, ⟨{ booted with pc := 0xFFF#16 }, by decide⟩,
    ⟨{ booted with pc := 0xFFE#16 }, by decide⟩⟩

/-- O9. -/
theorem witness_UndefinedWordRaisesDecodeFault :
    ∃ s : State, s.runsCycle ∧ s.fault = none ∧ s.pc.toNat + 1 < 4096 ∧ UndefinedWord (wordAtPc s) :=
  ⟨booted, by unfold UndefinedWord; decide⟩

/-- O10. -/
theorem witness_FaultedCoreExecutesNoCycle : ∃ s : State, s.runsCycle ∧ s.fault ≠ none :=
  ⟨{ booted with fault := some ⟨.decode, 0x200#16, some 0#16, 0⟩ }, by decide⟩

/-- O11, O12: a RET with an empty stack. -/
theorem witness_FaultsArePreciseAndFatal :
    ∃ s t : State, s.runsCycle ∧ s.fault = none ∧ step s = .next t ∧
      t.fault = some ⟨.stackUnderflow, 0x200#16, some 0x00EE#16, 0⟩ ∧ t.nextAction = .cycle :=
  ⟨atWord 0x00EE, _, by decide, by decide, rfl, by decide, by decide⟩

/-- O13: an instruction that runs, and one that faults. -/
theorem witness_EachInstructionLeavesPcAsTheTableSays :
    (∃ s t : State, s.runsCycle ∧ s.fault = none ∧ s.pc.toNat + 1 < 4096 ∧
      decodeWord (wordAtPc s) = .ok (.jpV0 0xFFF#12) ∧ step s = .next t ∧ t.fault = none) ∧
    (∃ s t : State, s.runsCycle ∧ s.fault = none ∧ s.pc.toNat + 1 < 4096 ∧
      decodeWord (wordAtPc s) = .ok .ret ∧ step s = .next t ∧ t.fault ≠ none) :=
  ⟨⟨atWord 0xBFFF, _, by decide, by decide, by decide, by decide, rfl, by decide⟩,
    ⟨atWord 0x00EE, _, by decide, by decide, by decide, by decide, rfl, by decide⟩⟩

/-- O14: a step that stores over its own word. -/
theorem witness_StepKeepsMemoryCanonical :
    ∃ s t : State, s.wf ∧ step s = .next t ∧ t.mem ≠ s.mem ∧ t.wf :=
  ⟨({ State.reset with i := 0x200#16 } : State).withFetchWord 16 0xF155, _, by decide, rfl, by decide, by decide⟩

/-- O15: a faulted state whose record is true, and its next step. -/
theorem witness_StepKeepsTheFaultRecordTrue :
    ∃ s t : State, s.faultTrue ∧ s.fault ≠ none ∧ step s = .next t :=
  ⟨{ booted with fault := some ⟨.decode, 0x200#16, some 0#16, 0⟩ }, _, .inr (by decide), by decide, rfl⟩

/-- O16. -/
theorem witness_ResetMeetsTheInvariants : State.reset.wf ∧ State.reset.faultTrue := ⟨by decide, .inl rfl⟩

/-- O19, O20, O24. -/
theorem witness_polling_actions :
    (toDo (.setKey 15 true)).nextAction = .setKey 15 true ∧ (toDo .timerDecay).nextAction = .timerDecay ∧
    (toDo .read).nextAction = .read := by decide

/-- O21. -/
theorem witness_OnlyResetClearsFault :
    ∃ s t : State, s.nextAction = .reset ∧ s.fault ≠ none ∧ step s = .next t ∧ t.fault = none :=
  ⟨{ toDo .reset with fault := some ⟨.decode, 0x200#16, some 0#16, 0⟩ }, _, by decide, by decide, rfl, by decide⟩

/-- O22: images of the least and the greatest length. -/
theorem witness_LoadCopiesTheImage :
    (∃ (s : State) (image : List Byte), s.nextAction = .load (some image) ∧
      s = { State.resetWith s.font with draws := s.draws, schedule := s.schedule } ∧ image.length = 1) ∧
    (∃ (s : State) (image : List Byte), s.nextAction = .load (some image) ∧
      s = { State.resetWith s.font with draws := s.draws, schedule := s.schedule } ∧ image.length = 3584) :=
  ⟨⟨toDo (.load (some [1#8])), [1#8], rfl, rfl, rfl⟩,
    ⟨toDo (.load (some (List.replicate 3584 1#8))), List.replicate 3584 1#8, rfl, rfl, List.length_replicate⟩⟩

/-- O23: images of length 0 and 3585, one that cannot be read, a late Load, and a Cycle after a failed Load. -/
theorem witness_BadLoadWritesNothingAndForbidsCycles :
    (∀ image : Option (List Byte), (toDo (.load image)).nextAction = .load image ∧
      toDo (.load image) = { State.resetWith (toDo (.load image)).font with
        draws := (toDo (.load image)).draws, schedule := (toDo (.load image)).schedule }) ∧
    ([] : List Byte).length = 0 ∧ 3584 < (List.replicate 3585 1#8).length ∧
    (∃ s : State, s.nextAction = .load none ∧
      s ≠ { State.resetWith s.font with draws := s.draws, schedule := s.schedule }) ∧
    (∃ s : State, s.nextAction = .cycle ∧ s.boot = .loadFailed) ∧
    (∃ s t : State, s.boot = .loadFailed ∧ step s = .next t ∧ t.boot ≠ .loadFailed) :=
  ⟨fun _ => ⟨rfl, rfl⟩, rfl, by rw [List.length_replicate]; decide, ⟨{ toDo (.load none) with pc := 0x202#16 }, by decide⟩,
    ⟨{ State.reset with boot := .loadFailed }, by decide⟩,
    ⟨{ toDo .reset with boot := .loadFailed }, _, by decide, rfl, by decide⟩⟩

/-- O35, O36, O37: the ends of SP's range, and a CALL that a RET undoes. -/
theorem witness_call_stack :
    (∃ s t : State, s.sp.val = 15 ∧ exec (.call 0x300#12) s = .next t ∧ t.sp.val = 16 ∧ t.stack[15] = s.pc) ∧
    (∃ s : State, s.sp.val = 16) ∧ State.reset.sp.val = 0 ∧
    (∃ s : State, s.sp.val = (15 : Fin 16).val + 1) ∧ (∃ s : State, s.sp.val = (0 : Fin 16).val + 1) :=
  ⟨⟨{ State.reset with sp := 15 }, _, by decide, rfl, by decide, by decide⟩, ⟨{ State.reset with sp := 16 }, by decide⟩,
    by decide, ⟨{ State.reset with sp := 16 }, by decide⟩, ⟨{ State.reset with sp := 1 }, by decide⟩⟩

/-- O39: V[x] = 15, the last key, and V[x] = 16. -/
theorem witness_KeySkipsReadTheLatch :
    ((withRegs [(5, 15#8)]).reg 5).toNat = (15 : Fin 16).val ∧ 15 < ((withRegs [(5, 16#8)]).reg 5).toNat := by decide

/-- O41 to O43: a block that ends at the last byte of MEM, and one that ends after it. -/
theorem witness_blocks :
    (∃ s : State, s.wf ∧ s.i.toNat + 2 = 4095) ∧ (∃ s : State, 4096 = s.i.toNat + 2) ∧
    (∃ s : State, s.wf ∧ s.i.toNat + (15 : Reg).val = 4095) ∧ (∃ s : State, 4096 = s.i.toNat + (15 : Reg).val) ∧
    (∃ s : State, 4096 ≤ s.i.toNat) :=
  ⟨⟨{ State.reset with i := 0xFFD#16 }, by decide⟩, ⟨{ State.reset with i := 0xFFE#16 }, by decide⟩,
    ⟨{ State.reset with i := 0xFF0#16 }, by decide⟩, ⟨{ State.reset with i := 0xFF1#16 }, by decide⟩,
    ⟨{ State.reset with i := 0xFFFF#16 }, by decide⟩⟩

/-- O44, O45: two registers stored over the word at PC. -/
theorem witness_stored_bytes :
    ∃ s t : State, s.wf ∧ s.i.toNat + (1 : Reg).val < 4096 ∧ s.pc.toNat = s.i.toNat + (0 : Reg).val ∧
      exec (.storeRegs 1) s = .next t ∧ t.fetch = .word 0x120A#16 :=
  ⟨{ withRegs [(0, 0x12#8), (1, 0x0A#8)] with i := 0x200#16 }, _, by decide, by decide, by decide, rfl, by decide⟩

/-- O46: the last key alone, and none. -/
theorem witness_KeyWaitLoadsTheLeastKeyOrRepeats :
    (∃ s : State, s.key[(15 : Fin 16)] = true ∧ ∀ j : Fin 16, j.val < 15 → s.key[j] = false) ∧
    (∀ k : Fin 16, State.reset.key[k] = false) :=
  ⟨⟨{ State.reset with key := State.reset.key.set 15 true }, by decide⟩, by decide⟩

/-- O49: no rows far outside MEM; rows that end at its last byte, and after it; a collision, and none. -/
theorem witness_DrwTogglesTheSpriteAndReportsCollision :
    (∃ s : State, 4096 ≤ s.i.toNat ∧ ∃ t, exec (.drw 0 1 0) s = .next t ∧ t.fault = none) ∧
    (∃ s : State, s.i.toNat + 15 = 4096) ∧ (∃ s : State, (15 : Nat) ≠ 0 ∧ 4096 < s.i.toNat + 15) ∧
    (∃ s : State, spriteCovers s 0 1 1 0 0 = true ∧ s.pixel 0 0 = true) ∧
    (∀ px py : Nat, px < 64 → py < 32 → spriteCovers State.reset 0 1 1 px py = true →
      State.reset.pixel px py = false) :=
  ⟨⟨{ State.reset with i := 0xFFFF#16 }, by decide, _, rfl, by decide⟩, ⟨{ State.reset with i := 0xFF1#16 }, by decide⟩,
    ⟨{ State.reset with i := 0xFF2#16 }, by decide⟩,
    ⟨{ State.reset with i := 0x050#16, fb := State.reset.fb.set 0 1#64 }, by decide⟩,
    fun px py _ hy _ => by simp [State.pixel, Framebuffer.pixel, State.reset, hy]⟩

/-- O50, O51. -/
theorem witness_drawings :
    (∃ s t : State, (0 : Reg) ≠ 0xF ∧ (1 : Reg) ≠ 0xF ∧ s.i.toNat + 5 ≤ 4096 ∧ exec (.drw 0 1 5) s = .next t ∧
      t.fb ≠ s.fb) ∧
    (∃ s t u : State, exec .cls s = .next t ∧ u.fb = t.fb ∧ u.i.toNat + 1 = 4096 ∧ s.fb ≠ t.fb) :=
  ⟨⟨{ State.reset with i := 0x050#16 }, _, by decide, by decide, by decide, rfl, by decide⟩,
    ⟨{ State.reset with fb := State.reset.fb.set 3 5#64 }, _, { State.reset with i := 0xFFF#16 }, rfl, by decide, by decide,
      by decide⟩⟩

/-- O52 to O56: instructions that write VF as a flag, I, the timers, the stack, the framebuffer and MEM. -/
theorem witness_writers :
    (∃ s t : State, exec (.addReg 0 1) s = .next t ∧ writesFlag (.addReg 0 1) = true ∧ s.fault = none ∧
      t.fault = none) ∧
    (∃ s t : State, exec (.ldReg 0 1) s = .next t ∧ (2 : Reg) ∉ resultRegs (.ldReg 0 1)) ∧
    (∃ s t : State, exec (.ldI 0x300#12) s = .next t ∧ t.i ≠ s.i) ∧
    (∃ s t : State, exec (.ldDtVx 1) s = .next t ∧ t.dt ≠ s.dt) ∧
    (∃ s t : State, exec (.ldStVx 1) s = .next t ∧ t.st ≠ s.st) ∧
    (∃ s t : State, exec (.call 0x300#12) s = .next t ∧ t.stack ≠ s.stack ∧ t.sp ≠ s.sp) ∧
    (∃ s t : State, exec (.drw 0 1 5) s = .next t ∧ t.fb ≠ s.fb) ∧
    (∃ s t : State, exec (.ldB 1) s = .next t ∧ t.readByte 0x302 ≠ s.readByte 0x302) :=
  ⟨⟨State.reset, _, rfl, by decide, by decide, by decide⟩, ⟨State.reset, _, rfl, by decide⟩,
    ⟨State.reset, _, rfl, by decide⟩, ⟨withRegs [(1, 9#8)], _, rfl, by decide⟩,
    ⟨withRegs [(1, 9#8)], _, rfl, by decide⟩, ⟨State.reset, _, rfl, by decide⟩,
    ⟨{ State.reset with i := 0x050#16 }, _, rfl, by decide⟩,
    ⟨{ withRegs [(1, 9#8)] with i := 0x300#16 }, _, rfl, by decide⟩⟩

/-- O58: a Cycle on a bare reset state; a Load that leads to Cycles; a Load after one; a Reset. -/
theorem witness_NoCycleBeforeASuccessfulLoad :
    (State.reset.nextAction = .cycle ∧ State.reset.boot ≠ .loaded) ∧
    (∃ s t : State, s.boot ≠ .loaded ∧ step s = .next t ∧ t.boot = .loaded) ∧
    (∃ s : State, s.boot = .loaded ∧ s.nextAction = .load (some [1#8])) ∧
    (toDo .reset).nextAction = .reset :=
  ⟨by decide, ⟨toDo (.load (some [1#8])), _, by decide, rfl, by decide⟩,
    ⟨{ toDo (.load (some [1#8])) with boot := .loaded }, by decide⟩, by decide⟩

/-- O59: a key latched before a Load. -/
theorem witness_CoreIsAsResetUntilALoadSucceeds :
    ∃ s t : State, s.asResetUntilLoaded ∧ step s = .next t ∧ t.boot ≠ .loaded ∧ t.key ≠ s.key :=
  ⟨toDo (.setKey 7 true), _, fun _ => by decide, rfl, by decide, by decide⟩

end Sys2Proof.Tests
end

section
/-! PROOFS. The state after reset (10_state.md R29), for every value of the parameter FONT (00_scope.md R5). -/

namespace Sys2Proof.Machine

/-! ### The arrays of the reset state -/

@[simp] theorem State.resetWith_v (font : Vector Byte 80) : (State.resetWith font).v = Vector.replicate 16 0#8 := rfl
@[simp] theorem State.resetWith_stack (font : Vector Byte 80) :
    (State.resetWith font).stack = Vector.replicate 16 0#16 := rfl
@[simp] theorem State.resetWith_key (font : Vector Byte 80) :
    (State.resetWith font).key = Vector.replicate 16 false := rfl
@[simp] theorem State.resetWith_fb (font : Vector Byte 80) :
    (State.resetWith font).fb = Vector.replicate 32 0#64 := rfl
@[simp] theorem State.resetWith_mem (font : Vector Byte 80) :
    (State.resetWith font).mem = Memory.writeBytes [] 0x050 font.toList := rfl

/-- Every pixel of the cleared framebuffer is off. -/
@[simp] theorem Framebuffer.pixel_replicate_zero (x y : Nat) :
    Framebuffer.pixel (Vector.replicate 32 0#64) x y = false := by
  simp [Framebuffer.pixel]

/-! ### The memory of the reset state -/

/-- An address that MEM does not list reads as 0 outside the font's 80 addresses. -/
theorem Memory.unlisted_outside_font {a : Nat} (ha : a < 0x050 ∨ 0x09F < a) : Memory.unlisted a = 0#8 :=
  if_neg (by simp only [Config.fontBase, Config.fontSize]; omega)

/-- Inside 0x050 to 0x09F, reset memory reads the parameter's bytes, whatever an unlisted address reads as. -/
theorem State.resetWith_readByte_font (font : Vector Byte 80) (k : Fin 80) :
    (State.resetWith font).readByte (0x050 + k.val) = font[k] := by
  have hin : 0x050 ≤ 0x050 + k.val ∧ 0x050 + k.val < 0x050 + font.toList.length := by
    rw [Vector.length_toList]; omega
  rw [State.readByte, State.resetWith_mem, Memory.read_writeBytes .nil, if_pos hin, Nat.add_sub_cancel_left]
  simp

/-- Outside the font, reset memory reads 0. -/
theorem State.resetWith_readByte_outside_font (font : Vector Byte 80) {a : Nat} (ha : a < 0x050 ∨ 0x09F < a) :
    (State.resetWith font).readByte a = 0#8 := by
  have hout : a < 0x050 ∨ 0x050 + font.toList.length ≤ a := by
    rw [Vector.length_toList]; omega
  rw [State.readByte, State.resetWith_mem, Memory.read_writeBytes_outside [] hout]
  exact Memory.unlisted_outside_font ha

/-- Settles O17, one conjunct for each row of R29: the arrays and the memory by their lemmas, the single fields by the
definition of the reset state. -/
theorem resetValues : Obligations.ResetValues := by
  intro font
  have hreg : ∀ r : Reg, (State.resetWith font).reg r = 0#8 := fun r => by simp [State.reg]
  have hstack : ∀ j : Fin 16, (State.resetWith font).stack[j] = 0#16 := fun j => by simp
  have hkey : ∀ k : Fin 16, (State.resetWith font).key[k] = false := fun k => by simp
  have hpixel : ∀ x y : Nat, (State.resetWith font).pixel x y = false := fun x y => by simp [State.pixel]
  exact ⟨hreg, rfl, rfl, rfl, hstack, rfl, rfl, hkey, hpixel, rfl, rfl, rfl,
    State.resetWith_readByte_font font, fun _ _ ha => State.resetWith_readByte_outside_font font ha⟩

end Sys2Proof.Machine
end

section
/-! PROOFS. One step for each host action (40_cycle.md R72 to R76), and the cycle of a fetched word (R66, R67). -/

namespace Sys2Proof.Machine

/-! ### The step of a host action -/

theorem step_of_setKey {s : State} {k : Fin 16} {b : Bool} (h : s.nextAction = .setKey k b) :
    step s = .next (s.popAction.setKey k b) := by
  simp only [step, h, perform]

theorem step_of_timerDecay {s : State} (h : s.nextAction = .timerDecay) :
    step s = .next s.popAction.timerDecay := by
  simp only [step, h, perform]

theorem step_of_read {s : State} (h : s.nextAction = .read) : step s = .next s.popAction := by
  simp only [step, h, perform]

/-- Read, TimerDecay and SetKey write the latch and the timers only (R74 to R76). -/
theorem step_frame_of_polling {s t : State}
    (hact : s.nextAction = .read ∨ s.nextAction = .timerDecay ∨ ∃ k b, s.nextAction = .setKey k b)
    (hstep : step s = .next t) : t = { s.popAction with key := t.key, dt := t.dt, st := t.st } := by
  rcases hact with h | h | ⟨k, b, h⟩
  · cases hstep.symm.trans (step_of_read h)
    rfl
  · cases hstep.symm.trans (step_of_timerDecay h)
    rfl
  · cases hstep.symm.trans (step_of_setKey h)
    rfl

/-- A Cycle that may be performed (R77, R133) is a cycle of the core. -/
theorem step_of_runsCycle {s : State} (h : s.runsCycle) : step s = cycle s.popAction := by
  obtain ⟨hact, hboot⟩ := h
  simp only [step, hact, perform]
  exact requestCycle_of_loaded hboot

/-! ### The cycle of a fetched word -/

/-- With both its bytes in MEM the fetch finds the word at PC (R34, R39). -/
theorem State.fetch_of_inside {s : State} (h : s.pc.toNat + 1 < 4096) : s.fetch = .word (wordAtPc s) := by
  have hlo : ¬Config.memSize ≤ s.pc.toNat := by simp only [Config.memSize]; omega
  have hhi : ¬Config.memSize ≤ s.pc.toNat + 1 := by simp only [Config.memSize]; omega
  rw [State.fetch, if_neg hlo, if_neg hhi]
  rfl

theorem runWord_of_decodes {s : State} {w : Word} {i : Instr} (h : decodeWord w = .ok i) :
    runWord s w = endCycle s (exec i (s.advance w)) := by
  simp only [runWord, h]

theorem cycle_of_fetched {s : State} {w : Word} (hf : s.fault = none) (hw : s.fetch = .word w) :
    cycle s = runWord s w := by
  simp only [cycle, hf, hw]

/-- A step that may run a cycle, with PC inside MEM and no fault, ends the handler of the instruction at PC. -/
theorem step_of_decodes {s : State} {i : Instr} (hrun : s.runsCycle) (hf : s.fault = none)
    (hpc : s.pc.toNat + 1 < 4096) (hi : decodeWord (wordAtPc s) = .ok i) :
    step s = endCycle s.popAction (exec i (s.popAction.advance (wordAtPc s))) := by
  have hfetch : s.popAction.fetch = .word (wordAtPc s) := State.fetch_of_inside (s := s.popAction) hpc
  rw [step_of_runsCycle hrun, cycle_of_fetched (s := s.popAction) hf hfetch, runWord_of_decodes hi]

/-! ### The obligations -/

/-- Settles O7: the handler answers a next state, and the end of the cycle keeps it, or takes its fault from the start
of the cycle. -/
theorem stepRunsTheDecodedInstruction : Obligations.StepRunsTheDecodedInstruction := by
  intro s i hrun hf hpc hi
  obtain ⟨t, ht⟩ := exec_next i (s.popAction.advance (wordAtPc s))
  have hstep : step s = endCycle s.popAction (.next t) := by rw [step_of_decodes hrun hf hpc hi, ht]
  refine ⟨t, ht, fun hnone => ?_, fun r hr => ?_⟩
  · rw [hstep, endCycle_of_none _ hnone]
  · rw [hstep, endCycle_of_fault _ hr]
    rfl

/-- Settles O19: the latch after SetKey is the old one with the entry `k` written. -/
theorem setKeySetsOneKey : Obligations.SetKeySetsOneKey := by
  intro s k b h
  refine ⟨_, step_of_setKey h, fun j => ?_, rfl⟩
  by_cases hjk : j = k
  · subst hjk
    simp
  · have hne : k.val ≠ j.val := fun hv => hjk (Fin.ext hv.symm)
    simp [hjk, Vector.getElem_set_ne _ _ hne]

/-- Settles O24: the registers and MEM are kept because Read, TimerDecay and SetKey leave every field but the latch and
the timers as it was. -/
theorem readAndPollingLeaveTheCoreAlone : Obligations.ReadAndPollingLeaveTheCoreAlone := by
  refine ⟨fun s h => ⟨step_of_read h, rfl⟩, fun s => ⟨rfl, rfl, rfl, rfl⟩, fun s t hact hstep => ?_⟩
  have hframe := step_frame_of_polling hact hstep
  exact ⟨fun r _ => congrArg (·.reg r) hframe, fun a => congrArg (·.readByte a) hframe, hframe⟩

end Sys2Proof.Machine
end

section
/-! PROOFS. Jumps and compare-skips (41_control_flow.md R79, R81 to R85): the address they compute, the comparison they
skip on, and that they write PC alone. -/

namespace Sys2Proof.Machine

/-! ### Computed addresses as numbers -/

@[simp] theorem directAddress_toNat (nnn : Addr12) : (directAddress nnn).toNat = nnn.toNat :=
  BitVec.toNat_setWidth_of_le (by decide)

@[simp] theorem zeroExtend_toNat (b : Byte) : (zeroExtend b).toNat = b.toNat :=
  BitVec.toNat_setWidth_of_le (by decide)

/-- A register plus a direct address is at most 0xFF + 0xFFF (R85). -/
theorem reg_add_address_le (b : Byte) (nnn : Addr12) : b.toNat + nnn.toNat ≤ 0x10FE := by
  omega

/-- The reduction mod 65536 of R85 never changes the sum. -/
theorem offsetAddress_toNat (s : State) (nnn : Addr12) :
    (offsetAddress s nnn).toNat = (s.reg 0).toNat + nnn.toNat := by
  have hle := reg_add_address_le (s.reg 0) nnn
  rw [offsetAddress, BitVec.toNat_add, zeroExtend_toNat, directAddress_toNat]
  exact Nat.mod_eq_of_lt (by omega)

/-! ### What a jump and a skip write -/

theorem State.jump_onlyPcChanges (s : State) (a : Word) : OnlyPcChanges s (s.jump a) :=
  ⟨fun _ _ => rfl, fun _ => rfl, rfl⟩

theorem State.skipIf_onlyPcChanges (s : State) (c : Bool) : OnlyPcChanges s (s.skipIf c) := by
  cases c with
  | true => exact s.jump_onlyPcChanges _
  | false => exact ⟨fun _ _ => rfl, fun _ => rfl, rfl⟩

/-- Equal bytes are bytes of equal value. -/
theorem State.skipIf_beq_pc (s : State) (a b : Byte) :
    (s.skipIf (a == b)).pc = if a.toNat = b.toNat then s.pc + 2#16 else s.pc := by
  simp [BitVec.toNat_inj]

theorem State.skipIf_bne_pc (s : State) (a b : Byte) :
    (s.skipIf (a != b)).pc = if a.toNat = b.toNat then s.pc else s.pc + 2#16 := by
  simp [BitVec.toNat_inj]

/-! ### The obligations -/

/-- Settles O34: both instructions are a jump, to an address whose number has not wrapped. -/
theorem jumpsSetPcAlone : Obligations.JumpsSetPcAlone := by
  intro s nnn
  have hsum : (s.jump (offsetAddress s nnn)).pc.toNat = (s.reg 0).toNat + nnn.toNat := offsetAddress_toNat s nnn
  refine ⟨⟨_, rfl, directAddress_toNat nnn, s.jump_onlyPcChanges _⟩, _, rfl, hsum, ?_, s.jump_onlyPcChanges _⟩
  exact hsum ▸ reg_add_address_le (s.reg 0) nnn

/-- Settles O38: each of the four is a skip on `==` or `!=`. -/
theorem comparisonsSkip : Obligations.ComparisonsSkip := by
  intro s x y kk
  exact ⟨⟨_, rfl, s.skipIf_beq_pc _ _, s.skipIf_onlyPcChanges _⟩,
    ⟨_, rfl, s.skipIf_bne_pc _ _, s.skipIf_onlyPcChanges _⟩,
    ⟨_, rfl, s.skipIf_beq_pc _ _, s.skipIf_onlyPcChanges _⟩,
    ⟨_, rfl, s.skipIf_bne_pc _ _, s.skipIf_onlyPcChanges _⟩⟩

end Sys2Proof.Machine
end

section
/-! PROOFS. Register loads, arithmetic and logic (42_alu.md R88 to R95, R97, with R107): every one of these instructions
writes one register, or one register and then the flag, so each obligation is that write's frame, its read, and what the
written byte and the flag are as numbers. -/

namespace Sys2Proof.Machine

/-! ### What a register write changes -/

theorem State.reg_setReg_of_ne {s : State} {x r : Reg} (h : x ≠ r) (b : Byte) : (s.setReg x b).reg r = s.reg r := by
  rw [State.reg_setReg, if_neg h]

theorem State.setReg_onlyRegsChange (s : State) (x : Reg) (b : Byte) : OnlyRegsChange [x] s (s.setReg x b) := by
  refine ⟨fun r hr => State.reg_setReg_of_ne ?_ b, fun _ => rfl, rfl⟩
  rintro rfl
  exact hr List.mem_cons_self

/-- A result and its flag change the destination and VF, and nothing else (R12, R13). -/
theorem State.setRegFlag_onlyRegsChange (s : State) (x : Reg) (b f : Byte) :
    OnlyRegsChange [x, 0xF] s (s.setRegFlag x b f) := by
  refine ⟨fun r hr => ?_, fun _ => rfl, rfl⟩
  simp only [List.mem_cons, List.not_mem_nil, or_false, not_or] at hr
  obtain ⟨hx, hvF⟩ := hr
  rw [State.reg_setRegFlag, if_neg hvF, if_neg hx]

/-- The flag is written last, so VF holds it even when VF is the destination (R12). -/
theorem State.reg_setRegFlag_vF (s : State) (x : Reg) (b f : Byte) : (s.setRegFlag x b f).reg 0xF = f := by
  rw [State.reg_setRegFlag, if_pos rfl]

theorem State.reg_setRegFlag_of_ne {s : State} {x : Reg} (h : x ≠ 0xF) (b f : Byte) :
    (s.setRegFlag x b f).reg x = b := by
  rw [State.reg_setRegFlag, if_neg h, if_pos rfl]

/-! ### Results and flags as numbers -/

theorem flagOf_decide_toNat (p : Prop) [Decidable p] : (flagOf (decide p)).toNat = if p then 1 else 0 := by
  by_cases h : p <;> simp [flagOf, h]

theorem carryFlag_toNat (a b : Byte) : (carryFlag a b).toNat = if a.toNat + b.toNat > 255 then 1 else 0 :=
  flagOf_decide_toNat _

theorem notBorrowFlag_toNat (a b : Byte) : (notBorrowFlag a b).toNat = if a.toNat > b.toNat then 1 else 0 :=
  flagOf_decide_toNat _

/-- A difference of bytes is the integer difference reduced into 0 to 255 (R95, R97). -/
theorem byteSub_toNat_emod (a b : Byte) : ((a - b).toNat : Int) = ((a.toNat : Int) - (b.toNat : Int)) % 256 := by
  rw [BitVec.toNat_sub]
  omega

/-- What a subtraction leaves, whichever operand is the minuend `a`: V[x] for SUB, V[y] for SUBN (R95, R97). -/
theorem State.setRegFlag_difference {s t : State} {x : Reg} {a b : Byte}
    (ht : t = s.setRegFlag x (a - b) (notBorrowFlag a b)) :
    (x ≠ 0xF → ((t.reg x).toNat : Int) = ((a.toNat : Int) - (b.toNat : Int)) % 256) ∧
      (t.reg 0xF).toNat = (if a.toNat > b.toNat then 1 else 0) ∧ OnlyRegsChange [x, 0xF] s t := by
  subst ht
  refine ⟨fun hx => ?_, ?_, s.setRegFlag_onlyRegsChange x _ _⟩
  · rw [State.reg_setRegFlag_of_ne hx, byteSub_toNat_emod]
  · rw [State.reg_setRegFlag_vF, notBorrowFlag_toNat]

/-! ### The obligations -/

/-- Settles O25: each of the three writes one register, with the value it loads. -/
theorem loadsIntoOneRegister : Obligations.LoadsIntoOneRegister := by
  intro s x y kk
  exact ⟨⟨_, rfl, s.reg_setReg_self x kk, s.setReg_onlyRegsChange x kk⟩,
    ⟨_, rfl, s.reg_setReg_self x (s.reg y), s.setReg_onlyRegsChange x (s.reg y)⟩,
    ⟨_, rfl, s.reg_setReg_self x s.dt, s.setReg_onlyRegsChange x s.dt⟩⟩

/-- Settles O26: the immediate sum is one register write, so VF is kept unless it is the destination. -/
theorem addImmediateWrapsWithoutFlag : Obligations.AddImmediateWrapsWithoutFlag := by
  intro s x kk
  refine ⟨_, rfl, ?_, fun hx => State.reg_setReg_of_ne hx _, s.setReg_onlyRegsChange x _⟩
  rw [State.reg_setReg_self, BitVec.toNat_add]

/-- Settles O27: each operation is one register write of a byte whose bits are the operation on the operands' bits. -/
theorem logicWorksBitByBit : Obligations.LogicWorksBitByBit := by
  intro s x y
  refine ⟨⟨_, rfl, fun k _ => ?_, s.setReg_onlyRegsChange x _⟩, ⟨_, rfl, fun k _ => ?_, s.setReg_onlyRegsChange x _⟩,
    ⟨_, rfl, fun k _ => ?_, s.setReg_onlyRegsChange x _⟩⟩
  · rw [State.reg_setReg_self, BitVec.getLsbD_or]
  · rw [State.reg_setReg_self, BitVec.getLsbD_and]
  · rw [State.reg_setReg_self, BitVec.getLsbD_xor]

/-- Settles O28: the sum and its carry are a result and its flag, both of the operands as they were before the write. -/
theorem addSetsCarry : Obligations.AddSetsCarry := by
  intro s x y
  refine ⟨_, rfl, fun hx => ?_, ?_, s.setRegFlag_onlyRegsChange x _ _⟩
  · rw [State.reg_setRegFlag_of_ne hx, BitVec.toNat_add]
  · rw [State.reg_setRegFlag_vF, carryFlag_toNat]

/-- Settles O29: the difference with V[x] as minuend. -/
theorem subSetsNotBorrow : Obligations.SubSetsNotBorrow := by
  intro s x y
  exact ⟨_, rfl, State.setRegFlag_difference rfl⟩

/-- Settles O30: the difference with V[y] as minuend. -/
theorem subnSetsNotBorrow : Obligations.SubnSetsNotBorrow := by
  intro s x y
  exact ⟨_, rfl, State.setRegFlag_difference rfl⟩

end Sys2Proof.Machine
end

section
/-! PROOFS. The instructions that set I (43_index_memory.md R101 to R103): each writes I alone, so the obligation is that
write's frame and the new I as a number. -/

namespace Sys2Proof.Machine

/-! ### What a write of I changes -/

/-- Only I differs: every register and every byte of MEM reads as before, and every other field is the same. -/
def OnlyIChanges (s t : State) : Prop := KeepsRegsExcept [] s t ∧ KeepsMemory s t ∧ t = { s with i := t.i }

theorem State.setI_onlyIChanges (s : State) (a : Word) : OnlyIChanges s { s with i := a } :=
  ⟨fun _ _ => rfl, fun _ => rfl, rfl⟩

/-! ### The new I as a number -/

/-- I plus a register is reduced mod 65536 (R102): I can wrap. -/
theorem add_zeroExtend_toNat (a : Word) (b : Byte) : (a + zeroExtend b).toNat = (a.toNat + b.toNat) % 65536 := by
  rw [BitVec.toNat_add, zeroExtend_toNat]

/-- The mask 0xF takes the remainder by 16. -/
theorem lowNibble_toNat (b : Byte) : (b &&& 0xF#8).toNat = b.toNat % 16 := by
  rw [BitVec.toNat_and]
  exact Nat.and_two_pow_sub_one_eq_mod b.toNat 4

/-- The last glyph is at 0x09B, so a glyph's address fits in a word (R103). -/
theorem glyphAddress_toNat (b : Byte) : (glyphAddress b).toNat = 0x050 + 5 * (b.toNat % 16) := by
  have hlt : 0x050 + 5 * (b.toNat % 16) < 2 ^ 16 := by omega
  rw [glyphAddress, BitVec.toNat_ofNat, lowNibble_toNat]
  exact Nat.mod_eq_of_lt hlt

/-! ### The obligation -/

/-- Settles O40: each of the three writes I once, with a direct address, a sum or a glyph's address. -/
theorem indexInstructionsSetIAlone : Obligations.IndexInstructionsSetIAlone := by
  intro s x nnn
  exact ⟨⟨_, rfl, directAddress_toNat nnn, s.setI_onlyIChanges _⟩,
    ⟨_, rfl, add_zeroExtend_toNat s.i (s.reg x), s.setI_onlyIChanges _⟩,
    ⟨_, rfl, glyphAddress_toNat (s.reg x), s.setI_onlyIChanges _⟩⟩

end Sys2Proof.Machine
end

section
/-! PROOFS. The key wait and the timer loads (44_timers_input.md R108 to R110): the key wait is a register write or a jump,
as the least latched key decides, and a timer load writes one timer. -/

namespace Sys2Proof.Machine

/-! ### The two outcomes of the key wait -/

theorem exec_ldVxK_of_leastKey {s : State} {k : Fin 16} (h : s.leastKey = some k) (x : Reg) :
    exec (.ldVxK x) s = .next (s.setReg x (BitVec.ofNat 8 k.val)) := by
  simp only [exec, execLdVxK, h]

theorem exec_ldVxK_of_noKey {s : State} (h : s.leastKey = none) (x : Reg) :
    exec (.ldVxK x) s = .next (s.jump (s.pc - 2#16)) := by
  simp only [exec, execLdVxK, h]

/-- A key's index fits in a byte, so the register holds the index itself. -/
theorem keyByte_toNat (k : Fin 16) : (BitVec.ofNat 8 k.val).toNat = k.val := by
  rw [BitVec.toNat_ofNat]
  exact Nat.mod_eq_of_lt (by omega)

/-! ### The obligations -/

/-- Settles O46: a latched key with none below it is the least key, and with no key latched there is no least key. -/
theorem keyWaitLoadsTheLeastKeyOrRepeats : Obligations.KeyWaitLoadsTheLeastKeyOrRepeats := by
  intro s x
  refine ⟨fun k hk hbelow => ?_, fun hnone => ?_⟩
  · refine ⟨_, exec_ldVxK_of_leastKey (s.leastKey_some k hk hbelow) x, ?_, s.setReg_onlyRegsChange x _⟩
    rw [State.reg_setReg_self, keyByte_toNat]
  · exact ⟨_, exec_ldVxK_of_noKey (s.leastKey_none hnone) x, rfl, s.jump_onlyPcChanges _⟩

/-- Settles O47: each handler is one update of its timer's field, and neither the registers nor MEM are read from a
timer. -/
theorem timerLoadsSetOneTimer : Obligations.TimerLoadsSetOneTimer := by
  intro s x
  have hdt : exec (.ldDtVx x) s = .next { s with dt := s.reg x } := rfl
  have hst : exec (.ldStVx x) s = .next { s with st := s.reg x } := rfl
  exact ⟨⟨_, hdt, rfl, fun _ _ => rfl, fun _ => rfl, rfl⟩, ⟨_, hst, rfl, fun _ _ => rfl, fun _ => rfl, rfl⟩⟩

end Sys2Proof.Machine
end

section
/-! PROOFS. CLS (45_graphics.md R112): its handler puts the cleared framebuffer in place of the old one, and a new
framebuffer leaves the registers, MEM and every other field as they were. -/

namespace Sys2Proof.Machine

theorem exec_cls (s : State) : exec .cls s = .next { s with fb := Vector.replicate 32 0#64 } := rfl

/-- Settles O48: every pixel of the framebuffer that CLS writes is off, and neither the registers nor MEM are read from
the framebuffer. -/
theorem clsClearsTheScreen : Obligations.ClsClearsTheScreen := by
  intro s
  have hoff : ∀ x y : Nat, State.pixel { s with fb := Vector.replicate 32 0#64 } x y = false :=
    Framebuffer.pixel_replicate_zero
  exact ⟨_, exec_cls s, hoff, fun _ _ => rfl, fun _ => rfl, rfl⟩

end Sys2Proof.Machine
end

section
/-! PROOFS. The rejection of the undefined words (30_encoding.md R60), and the DecodeFault it raises (60_exceptions.md
R115). -/

namespace Sys2Proof.Machine

/-! ### What each family rejects (R55 to R59) -/

theorem decodeFamily0_of_ne {w : Word} (hcls : w ≠ 0x00E0#16) (hret : w ≠ 0x00EE#16) :
    decodeFamily0 w = .error (.unrecognized w) := by
  rw [decodeFamily0, if_neg hcls, if_neg hret]

theorem decodeLowNibbleZero_of_ne {w : Word} (h : nBits w ≠ 0) (i : Instr) :
    decodeLowNibbleZero i w = .error (.unrecognized w) :=
  if_neg h

theorem decodeFamily8_of_mem {w : Word} (h : nBits w ∈ [0x8, 0x9, 0xA, 0xB, 0xC, 0xD, 0xF]) :
    decodeFamily8 w = .error (.unrecognized w) := by
  simp only [List.mem_cons, List.not_mem_nil, or_false] at h
  rcases h with h | h | h | h | h | h | h <;> simp [decodeFamily8, h]

/-- The decoder selects by the number a field holds, R60 by its bits: a field outside a list of bits holds none of
their numbers. -/
theorem toNat_not_mem_map {n : Nat} {b : BitVec n} {l : List (BitVec n)} (h : b ∉ l) :
    b.toNat ∉ l.map BitVec.toNat :=
  mt (List.mem_map_of_injective BitVec.toNat_injective).mp h

theorem decodeFamilyE_of_not_mem {w : Word} (h : kkField w ∉ [0x9E, 0xA1]) :
    decodeFamilyE w = .error (.unrecognized w) := by
  have hnum := toNat_not_mem_map h
  rw [decodeFamilyE]
  split
  case h_3 => rfl
  all_goals next hk => exact absurd hnum (by rw [hk]; decide)

theorem decodeFamilyF_of_not_mem {w : Word}
    (h : kkField w ∉ [0x07, 0x0A, 0x15, 0x18, 0x1E, 0x29, 0x33, 0x55, 0x65]) :
    decodeFamilyF w = .error (.unrecognized w) := by
  have hnum := toNat_not_mem_map h
  rw [decodeFamilyF]
  split
  case h_10 => rfl
  all_goals next hk => exact absurd hnum (by rw [hk]; decide)

/-! ### What the decoder and the cycle do with an undefined word -/

/-- Each family of R60's list is rejected by its own decoder. -/
theorem decodeWord_of_undefined {w : Word} (h : UndefinedWord w) : decodeWord w = .error (.unrecognized w) := by
  rw [decodeWord]
  rcases h with ⟨hop, hcls, hret⟩ | ⟨hop, hn⟩ | ⟨hop, hn⟩ | ⟨hop, hn⟩ | ⟨hop, hkk⟩ | ⟨hop, hkk⟩ <;>
    rw [hop]
  · exact decodeFamily0_of_ne hcls hret
  · exact decodeLowNibbleZero_of_ne hn _
  · exact decodeFamily8_of_mem hn
  · exact decodeLowNibbleZero_of_ne hn _
  · exact decodeFamilyE_of_not_mem hkk
  · exact decodeFamilyF_of_not_mem hkk

/-- A word the decoder rejects, for whatever reason, raises DecodeFault with the word (R115). -/
theorem runWord_of_rejected {s : State} {w : Word} {e : DecodeError} (h : decodeWord w = .error e) :
    runWord s w = .next (s.takeFault { cause := .decode, addr := s.pc, word := some w, info := w.toNat }) := by
  simp only [runWord, h]

/-! ### The obligation -/

/-- Settles O9: the step is a cycle that fetches the word at PC, and the decoder rejects an undefined word. -/
theorem undefinedWordRaisesDecodeFault : Obligations.UndefinedWordRaisesDecodeFault := by
  intro s hrun hf hpc hundef
  have hfetch : s.popAction.fetch = .word (wordAtPc s) := State.fetch_of_inside (s := s.popAction) hpc
  rw [step_of_runsCycle hrun, cycle_of_fetched (s := s.popAction) hf hfetch,
    runWord_of_rejected (decodeWord_of_undefined hundef)]
  rfl

end Sys2Proof.Machine
end

section
/-! PROOFS. Reset (70_reset_and_hazards.md R128, R130): what it constructs on any state, and that a fault once recorded
is kept by every other action. -/

namespace Sys2Proof.Machine

/-! ### The step of Reset -/

theorem step_of_reset {s : State} (h : s.nextAction = .reset) : step s = .next s.popAction.hostReset := by
  simp only [step, h, perform]

/-! ### What keeps a recorded fault -/

/-- On a faulted core a cycle is the identity (R118); the other outcomes of a cycle start without a fault. -/
theorem cycle_eq_self_of_faulted {s t : State} (hf : s.fault ≠ none) (h : cycle s = .next t) : t = s := by
  rcases cycle_cases h with ⟨_, hself⟩ | ⟨hnone, _⟩ | ⟨hnone, _⟩
  · exact hself
  · exact absurd hnone hf
  · exact absurd hnone hf

/-- Load writes MEM and the boot phase only, whether it succeeds or fails (R131, R132). -/
theorem load_keeps_fault {s t : State} {image : Option (List Byte)} (h : load image s = .next t) :
    t.fault = s.fault := by
  obtain ⟨_, ⟨_, _, _, rfl⟩ | rfl⟩ := load_cases h <;> rfl

/-- Every action but Reset keeps the record of a faulted core. -/
theorem perform_keeps_fault {a : HostAction} {s t : State} (ha : a ≠ .reset) (hf : s.fault ≠ none)
    (h : perform a s = .next t) : t.fault = s.fault := by
  cases a with
  | cycle => rw [cycle_eq_self_of_faulted hf (requestCycle_cases h).2]
  | setKey k b => cases h; rfl
  | timerDecay => cases h; rfl
  | read => cases h; rfl
  | reset => exact absurd rfl ha
  | load image => exact load_keeps_fault h

/-! ### The obligation -/

/-- Settles O21: Reset reads of the state only its FONT, draws and schedule, and a step that is no Reset keeps a recorded
fault. -/
theorem onlyResetClearsFault : Obligations.OnlyResetClearsFault := by
  refine ⟨fun s hact => step_of_reset hact, fun s t hf hstep hclear => ?_⟩
  by_contra hact
  have hkept : t.fault = s.fault := perform_keeps_fault (s := s.popAction) hact hf hstep
  exact hf (hkept.symm.trans hclear)

end Sys2Proof.Machine
end

section
/-! PROOFS. The decoder against the encoder and the opcode map (30_encoding.md R54, R60, R61): a word is either the encoding
of the well-formed instruction it decodes to, or one of R60's undefined words, and the rows tell which. -/

namespace Sys2Proof

open Sys2Proof.Machine

/-! ### Decoding an encoding -/

@[simp] theorem xField_wordXK (op : Nibble) (x : Reg) (kk : Byte) : xField (wordXK op x kk) = x := by
  rw [xField, xBits_wordXK, regOfBits_regBits]

@[simp] theorem xField_wordXY (op : Nibble) (x y : Reg) (n : Nibble) : xField (wordXY op x y n) = x := by
  rw [xField, xBits_wordXY, regOfBits_regBits]

@[simp] theorem yField_wordXY (op : Nibble) (x y : Reg) (n : Nibble) : yField (wordXY op x y n) = y := by
  rw [yField, yBits_wordXY, regOfBits_regBits]

/-- A row count of at most 15 fits in its nibble (R52). -/
theorem nField_wordXY_ofNat (op : Nibble) (x y : Reg) {n : Nat} (h : n ≤ 15) :
    nField (wordXY op x y (BitVec.ofNat 4 n)) = n := by
  rw [nField, nBits_wordXY, BitVec.toNat_ofNat]
  exact Nat.mod_eq_of_lt (by omega)

/-- The fields of an encoding are the operands, and its fixed bits lead the decoder to the instruction's own arm. -/
theorem decodeWord_encode {i : Instr} (h : i.wf = true) : decodeWord (encode i) = .ok i := by
  cases i with
  | cls => rfl
  | ret => rfl
  | drw x y n =>
    have hn : n ≤ 15 := of_decide_eq_true h
    simp [encode, decodeWord, nField_wordXY_ofNat _ _ _ hn]
  | _ => simp [encode, decodeWord, decodeLowNibbleZero, decodeFamily8, decodeFamilyE, decodeFamilyF]

/-- The two bytes of a word are decoded as the word, and the bytes after them are left over. -/
theorem decodeBytes_wordBytes_append {w : Word} {i : Instr} (h : decodeWord w = .ok i) (rest : List Byte) :
    decodeBytes (wordBytes w ++ rest) = .ok (i, rest) := by
  simp [decodeBytes, wordBytes, h]

/-! ### A word from the fields that the decoder tests -/

theorem wordA_of_op {w : Word} {op : Nibble} (hop : (opField w).toNat = op.toNat) : wordA op (nnnField w) = w := by
  rw [← BitVec.eq_of_toNat_eq hop, wordA_fields]

theorem wordXK_of_op {w : Word} {op : Nibble} (hop : (opField w).toNat = op.toNat) :
    wordXK op (xField w) (kkField w) = w := by
  rw [← BitVec.eq_of_toNat_eq hop, wordXK_fields]

theorem wordXY_of_op {w : Word} {op : Nibble} (hop : (opField w).toNat = op.toNat) :
    wordXY op (xField w) (yField w) (nBits w) = w := by
  rw [← BitVec.eq_of_toNat_eq hop, wordXY_fields]

theorem wordXY_of_op_fn4 {w : Word} {op fn4 : Nibble} (hop : (opField w).toNat = op.toNat)
    (hn : (nBits w).toNat = fn4.toNat) : wordXY op (xField w) (yField w) fn4 = w := by
  rw [← BitVec.eq_of_toNat_eq hn, wordXY_of_op hop]

theorem wordXK_of_op_fn8 {w : Word} {op : Nibble} {fn8 : Byte} (hop : (opField w).toNat = op.toNat)
    (hkk : (kkField w).toNat = fn8.toNat) : wordXK op (xField w) fn8 = w := by
  rw [← BitVec.eq_of_toNat_eq hkk, wordXK_of_op hop]

/-- A row count read from a word is at most 15 (R52). -/
theorem nField_wf (w : Word) : (Instr.drw (xField w) (yField w) (nField w)).wf = true :=
  decide_eq_true (Nat.le_of_lt_succ (nBits w).isLt)

theorem encode_drw_of_op {w : Word} (hop : (opField w).toNat = (0xD#4).toNat) :
    encode (.drw (xField w) (yField w) (nField w)) = w := by
  rw [encode, nField, BitVec.ofNat_toNat, BitVec.setWidth_eq, wordXY_of_op hop]

/-! ### What the decoder can answer -/

/-- What a decoder may answer for the word `w`: the well-formed instruction whose encoding `w` is, or the rejection of `w`,
which R60 then lists. -/
def DecodesOrRejects (w : Word) (answer : Except DecodeError Instr) : Prop :=
  (∃ i : Instr, answer = .ok i ∧ i.wf = true ∧ encode i = w) ∨ (answer = .error (.unrecognized w) ∧ UndefinedWord w)

theorem DecodesOrRejects.of_encode {w : Word} {i : Instr} (hwf : i.wf = true) (henc : encode i = w) :
    DecodesOrRejects w (.ok i) := .inl ⟨i, rfl, hwf, henc⟩

theorem DecodesOrRejects.of_undefined {w : Word} (h : UndefinedWord w) :
    DecodesOrRejects w (.error (.unrecognized w)) := .inr ⟨rfl, h⟩

/-- A field that holds none of the numbers of a list is outside the list of bits. -/
theorem not_mem_of_toNat_ne {n : Nat} {b : BitVec n} {l : List (BitVec n)} (h : ∀ c ∈ l, b.toNat ≠ c.toNat) : b ∉ l :=
  fun hb => h b hb rfl

/-- R55. -/
theorem decodeFamily0_answer {w : Word} (hop : (opField w).toNat = 0x0) : DecodesOrRejects w (decodeFamily0 w) := by
  unfold decodeFamily0
  split
  · next hcls => exact .of_encode rfl hcls.symm
  · next hcls =>
    split
    · next hret => exact .of_encode rfl hret.symm
    · next hret => exact .of_undefined (.inl ⟨BitVec.eq_of_toNat_eq hop, hcls, hret⟩)

/-- R59, for the family of an instruction whose encoding has the low nibble 0. -/
theorem decodeLowNibbleZero_answer {w : Word} {i : Instr} (hwf : i.wf = true)
    (henc : (nBits w).toNat = (0x0#4).toNat → encode i = w) (hundef : nBits w ≠ 0 → UndefinedWord w) :
    DecodesOrRejects w (decodeLowNibbleZero i w) := by
  unfold decodeLowNibbleZero
  split
  · next hn => exact .of_encode hwf (henc (congrArg BitVec.toNat hn))
  · next hn => exact .of_undefined (hundef hn)

/-- Family 8's function nibbles are listed by the decoder or by R60. -/
theorem nibble_mem_of_not_mem {n : Nibble} (h : n ∉ [0x0, 0x1, 0x2, 0x3, 0x4, 0x5, 0x6, 0x7, 0xE]) :
    n ∈ [0x8, 0x9, 0xA, 0xB, 0xC, 0xD, 0xF] := by
  revert n
  decide

/-- R56. -/
theorem decodeFamily8_answer {w : Word} (hop : (opField w).toNat = 0x8) : DecodesOrRejects w (decodeFamily8 w) := by
  unfold decodeFamily8
  split
  case h_10 h0 h1 h2 h3 h4 h5 h6 h7 hE =>
    have hout : nBits w ∉ [0x0, 0x1, 0x2, 0x3, 0x4, 0x5, 0x6, 0x7, 0xE] := by
      refine not_mem_of_toNat_ne ?_
      simpa using ⟨h0, h1, h2, h3, h4, h5, h6, h7, hE⟩
    exact .of_undefined (.inr (.inr (.inl ⟨BitVec.eq_of_toNat_eq hop, nibble_mem_of_not_mem hout⟩)))
  all_goals next hn => exact .of_encode rfl (wordXY_of_op_fn4 hop hn)

/-- R57. -/
theorem decodeFamilyE_answer {w : Word} (hop : (opField w).toNat = 0xE) : DecodesOrRejects w (decodeFamilyE w) := by
  unfold decodeFamilyE
  split
  case h_3 h9E hA1 =>
    refine .of_undefined (.inr (.inr (.inr (.inr (.inl ⟨BitVec.eq_of_toNat_eq hop, not_mem_of_toNat_ne ?_⟩)))))
    simpa using ⟨h9E, hA1⟩
  all_goals next hkk => exact .of_encode rfl (wordXK_of_op_fn8 hop hkk)

/-- R58. -/
theorem decodeFamilyF_answer {w : Word} (hop : (opField w).toNat = 0xF) : DecodesOrRejects w (decodeFamilyF w) := by
  unfold decodeFamilyF
  split
  case h_10 h07 h0A h15 h18 h1E h29 h33 h55 h65 =>
    refine .of_undefined (.inr (.inr (.inr (.inr (.inr ⟨BitVec.eq_of_toNat_eq hop, not_mem_of_toNat_ne ?_⟩)))))
    simpa using ⟨h07, h0A, h15, h18, h1E, h29, h33, h55, h65⟩
  all_goals next hkk => exact .of_encode rfl (wordXK_of_op_fn8 hop hkk)

/-- Every answer of the decoder, said once: the top nibble selects the family, whose fixed bits are then those of the
encoding. -/
theorem decodeWord_answer (w : Word) : DecodesOrRejects w (decodeWord w) := by
  unfold decodeWord
  split
  case h_1 hop => exact decodeFamily0_answer hop
  case h_2 hop => exact .of_encode rfl (wordA_of_op hop)
  case h_3 hop => exact .of_encode rfl (wordA_of_op hop)
  case h_4 hop => exact .of_encode rfl (wordXK_of_op hop)
  case h_5 hop => exact .of_encode rfl (wordXK_of_op hop)
  case h_6 hop =>
    exact decodeLowNibbleZero_answer rfl (wordXY_of_op_fn4 hop) fun hn => .inr (.inl ⟨BitVec.eq_of_toNat_eq hop, hn⟩)
  case h_7 hop => exact .of_encode rfl (wordXK_of_op hop)
  case h_8 hop => exact .of_encode rfl (wordXK_of_op hop)
  case h_9 hop => exact decodeFamily8_answer hop
  case h_10 hop =>
    exact decodeLowNibbleZero_answer rfl (wordXY_of_op_fn4 hop) fun hn =>
      .inr (.inr (.inr (.inl ⟨BitVec.eq_of_toNat_eq hop, hn⟩)))
  case h_11 hop => exact .of_encode rfl (wordA_of_op hop)
  case h_12 hop => exact .of_encode rfl (wordA_of_op hop)
  case h_13 hop => exact .of_encode rfl (wordXK_of_op hop)
  case h_14 hop =>
    exact .of_encode (nField_wf w) (encode_drw_of_op hop)
  case h_15 hop => exact decodeFamilyE_answer hop
  case h_16 hop => exact decodeFamilyF_answer hop
  case h_17 =>
    have hlt := (opField w).isLt
    simp only [imp_false] at *
    omega

/-! ### A word that a row matches -/

/-- The mask 0xF000 leaves the top nibble. -/
theorem op_of_row {m w : Word} {op : Nibble} (hm : wordA op 0 = m) (h : rowMatches (0xF000, m) w = true) :
    (opField w).toNat = op.toNat := by
  have hw : wordA (opField w) 0x000#12 = wordA op 0 := by rw [← mask_op, hm]; exact of_decide_eq_true h
  have hop : opField w = op := by simpa using congrArg opField hw
  rw [hop]

/-- The mask 0xF00F leaves the top nibble and fn4, so a word its row matches is built from them. -/
theorem wordXY_of_row {m w : Word} {op fn4 : Nibble} (hm : wordXY op 0 0 fn4 = m)
    (h : rowMatches (0xF00F, m) w = true) : wordXY op (xField w) (yField w) fn4 = w := by
  have hw : wordXY (opField w) 0 0 (nBits w) = wordXY op 0 0 fn4 := by
    rw [← mask_op_fn4, hm]; exact of_decide_eq_true h
  have hop : opField w = op := by simpa using congrArg opField hw
  have hn : nBits w = fn4 := by simpa using congrArg nBits hw
  rw [← hop, ← hn, wordXY_fields]

/-- The mask 0xF0FF leaves the top nibble and fn8, so a word its row matches is built from them. -/
theorem wordXK_of_row {m w : Word} {op : Nibble} {fn8 : Byte} (hm : wordXK op 0 fn8 = m)
    (h : rowMatches (0xF0FF, m) w = true) : wordXK op (xField w) fn8 = w := by
  have hw : wordXK (opField w) 0 (kkField w) = wordXK op 0 fn8 := by
    rw [← mask_op_fn8, hm]; exact of_decide_eq_true h
  have hop : opField w = op := by simpa using congrArg opField hw
  have hkk : kkField w = fn8 := by simpa using congrArg kkField hw
  rw [← hop, ← hkk, wordXK_fields]

/-- The mask 0xFFFF leaves the whole word. -/
theorem eq_of_row {m w : Word} (h : rowMatches (0xFFFF, m) w = true) : m = w := by
  have hw : w &&& 0xFFFF#16 = m := of_decide_eq_true h
  rw [← hw]
  exact BitVec.and_allOnes

/-- Row by row: a word that the row matches is the encoding of the row's instruction with the word's fields. -/
theorem exists_encode_of_rowMatches {w : Word} : ∀ r ∈ opcodeMap, rowMatches r w = true →
    ∃ i : Instr, i.row = r ∧ i.wf = true ∧ encode i = w := by
  simp only [opcodeMap, List.cons_append, List.nil_append, List.forall_mem_cons]
  exact ⟨fun h => ⟨.cls, rfl, rfl, eq_of_row h⟩, fun h => ⟨.ret, rfl, rfl, eq_of_row h⟩,
    fun h => ⟨.jp _, rfl, rfl, wordA_of_op (op_of_row rfl h)⟩,
    fun h => ⟨.call _, rfl, rfl, wordA_of_op (op_of_row rfl h)⟩,
    fun h => ⟨.seByte _ _, rfl, rfl, wordXK_of_op (op_of_row rfl h)⟩,
    fun h => ⟨.sneByte _ _, rfl, rfl, wordXK_of_op (op_of_row rfl h)⟩,
    fun h => ⟨.seReg _ _, rfl, rfl, wordXY_of_row rfl h⟩,
    fun h => ⟨.ldByte _ _, rfl, rfl, wordXK_of_op (op_of_row rfl h)⟩,
    fun h => ⟨.addByte _ _, rfl, rfl, wordXK_of_op (op_of_row rfl h)⟩,
    fun h => ⟨.ldReg _ _, rfl, rfl, wordXY_of_row rfl h⟩,
    fun h => ⟨.orReg _ _, rfl, rfl, wordXY_of_row rfl h⟩,
    fun h => ⟨.andReg _ _, rfl, rfl, wordXY_of_row rfl h⟩,
    fun h => ⟨.xorReg _ _, rfl, rfl, wordXY_of_row rfl h⟩,
    fun h => ⟨.addReg _ _, rfl, rfl, wordXY_of_row rfl h⟩,
    fun h => ⟨.subReg _ _, rfl, rfl, wordXY_of_row rfl h⟩,
    fun h => ⟨.shr _ _, rfl, rfl, wordXY_of_row rfl h⟩,
    fun h => ⟨.subnReg _ _, rfl, rfl, wordXY_of_row rfl h⟩,
    fun h => ⟨.shl _ _, rfl, rfl, wordXY_of_row rfl h⟩,
    fun h => ⟨.sneReg _ _, rfl, rfl, wordXY_of_row rfl h⟩,
    fun h => ⟨.ldI _, rfl, rfl, wordA_of_op (op_of_row rfl h)⟩,
    fun h => ⟨.jpV0 _, rfl, rfl, wordA_of_op (op_of_row rfl h)⟩,
    fun h => ⟨.rnd _ _, rfl, rfl, wordXK_of_op (op_of_row rfl h)⟩,
    fun h => ⟨.drw _ _ _, rfl, nField_wf w, encode_drw_of_op (op_of_row rfl h)⟩,
    fun h => ⟨.skp _, rfl, rfl, wordXK_of_row rfl h⟩,
    fun h => ⟨.sknp _, rfl, rfl, wordXK_of_row rfl h⟩,
    fun h => ⟨.ldVxDt _, rfl, rfl, wordXK_of_row rfl h⟩,
    fun h => ⟨.ldVxK _, rfl, rfl, wordXK_of_row rfl h⟩,
    fun h => ⟨.ldDtVx _, rfl, rfl, wordXK_of_row rfl h⟩,
    fun h => ⟨.ldStVx _, rfl, rfl, wordXK_of_row rfl h⟩,
    fun h => ⟨.addI _, rfl, rfl, wordXK_of_row rfl h⟩,
    fun h => ⟨.ldF _, rfl, rfl, wordXK_of_row rfl h⟩,
    fun h => ⟨.ldB _, rfl, rfl, wordXK_of_row rfl h⟩,
    fun h => ⟨.storeRegs _, rfl, rfl, wordXK_of_row rfl h⟩,
    fun h => ⟨.loadRegs _, rfl, rfl, wordXK_of_row rfl h⟩, nofun⟩

theorem nodup_opcodeMap : opcodeMap.Nodup := by decide

/-- Every encoding matches its instruction's row, by the law of its constructor. -/
theorem rowMatches_row_encode : ∀ i : Instr, Laws.EncodeRow.Statement i := open Laws.EncodeRow in fun
  | .cls => cls | .ret => ret | .jp a => jp a | .call a => call a
  | .seByte x k => seByte x k | .sneByte x k => sneByte x k | .seReg x y => seReg x y | .sneReg x y => sneReg x y
  | .ldByte x k => ldByte x k | .addByte x k => addByte x k | .ldReg x y => ldReg x y | .orReg x y => orReg x y
  | .andReg x y => andReg x y | .xorReg x y => xorReg x y | .addReg x y => addReg x y | .subReg x y => subReg x y
  | .shr x y => shr x y | .subnReg x y => subnReg x y | .shl x y => shl x y | .ldI a => ldI a | .jpV0 a => jpV0 a
  | .rnd x k => rnd x k | .drw x y n => drw x y n | .skp x => skp x | .sknp x => sknp x | .ldVxDt x => ldVxDt x
  | .ldVxK x => ldVxK x | .ldDtVx x => ldDtVx x | .ldStVx x => ldStVx x | .addI x => addI x | .ldF x => ldF x
  | .ldB x => ldB x | .storeRegs x => storeRegs x | .loadRegs x => loadRegs x

/-! ### The obligations -/

/-- Settles O1: the round trip of the word, and of its bytes. -/
theorem decodeOfEncodeIsTheInstruction : Obligations.DecodeOfEncodeIsTheInstruction :=
  fun _ hwf => ⟨decodeWord_encode hwf, decodeBytes_wordBytes_append (decodeWord_encode hwf)⟩

/-- Settles O2: the first of the two answers of the decoder. -/
theorem encodeOfDecodeIsTheWord : Obligations.EncodeOfDecodeIsTheWord := by
  intro w i h
  rcases decodeWord_answer w with ⟨j, hj, hwf, henc⟩ | ⟨herr, _⟩
  · cases h.symm.trans hj
    exact ⟨hwf, henc⟩
  · cases h.symm.trans herr

/-- Settles O3: a decoded word is an encoding, which matches its row; and a word that a row matches is an encoding, which
decodes. -/
theorem decodeFollowsTheOpcodeMap : Obligations.DecodeFollowsTheOpcodeMap := by
  refine ⟨fun w i h => ⟨row_mem_opcodeMap i, ?_⟩, fun w r hr hmatch => ?_⟩
  · obtain ⟨_, rfl⟩ := encodeOfDecodeIsTheWord w i h
    exact rowMatches_row_encode i
  · obtain ⟨i, hrow, hwf, rfl⟩ := exists_encode_of_rowMatches r hr hmatch
    exact ⟨i, decodeWord_encode hwf, hrow⟩

/-- Settles O4: two rows that match one word are both the row of the one instruction it decodes to, and the map lists no
row twice; a rejected word is matched by no row, since it would decode. -/
theorem opcodeRowsAreDisjointAndDecodeTotal : Obligations.OpcodeRowsAreDisjointAndDecodeTotal := by
  obtain ⟨hrow_of_decode, hdecode_of_row⟩ := decodeFollowsTheOpcodeMap
  refine ⟨nodup_opcodeMap.imp_of_mem ?_, fun w => ?_⟩
  · rintro r q hr hq hne w ⟨hrw, hqw⟩
    obtain ⟨i, hi, rfl⟩ := hdecode_of_row w r hr hrw
    obtain ⟨j, hj, rfl⟩ := hdecode_of_row w q hq hqw
    cases hi.symm.trans hj
    exact hne rfl
  · rcases decodeWord_answer w with ⟨i, hi, _⟩ | ⟨herr, _⟩
    · obtain ⟨hmem, hmatch⟩ := hrow_of_decode w i hi
      exact .inl ⟨i, i.row, hi, rfl, hmem, hmatch⟩
    · refine .inr ⟨herr, fun r hr => Bool.eq_false_iff.mpr fun hrw => ?_⟩
      obtain ⟨i, hi, _⟩ := hdecode_of_row w r hr hrw
      cases herr.symm.trans hi

/-- Settles O5: the second of the two answers of the decoder, and the rejection of each of R60's families. -/
theorem decodeRejectsExactlyTheUndefinedWords : Obligations.DecodeRejectsExactlyTheUndefinedWords := by
  refine fun w => ⟨fun h => ?_, decodeWord_of_undefined⟩
  rcases decodeWord_answer w with ⟨i, hi, _⟩ | ⟨_, hundef⟩
  · cases h.symm.trans hi
  · exact hundef

/-- Settles O6: each word is a closed term that the decoder evaluates. -/
theorem writtenOutWordsDecode : Obligations.WrittenOutWordsDecode := by
  unfold Obligations.WrittenOutWordsDecode
  decide

end Sys2Proof
end

section
/-! PROOFS. What a handler answers, said once for all 34 instructions: it records the fault that R114's table gives, or
leaves one state, whose fields are read off below. -/

namespace Sys2Proof.Machine

/-! ### The check of a block, and SP as a number -/

theorem blockFault_of_inside {s : State} {n : Nat} (h : n = 0 ∨ s.i.toNat + n ≤ 4096) : blockFault s n = none :=
  if_pos h

/-- The lowest address outside MEM is I, or 4096 where I is inside (R100). -/
theorem blockFault_of_outside {s : State} {n : Nat} (hn : n ≠ 0) (h : 4096 < s.i.toNat + n) :
    blockFault s n = some (.memoryBounds, max s.i.toNat 4096) := by
  rw [blockFault, if_neg (by omega)]
  split
  · next hi => rw [Nat.max_eq_left hi]
  · next hi => rw [Nat.max_eq_right (by omega)]

/-- An access that raises nothing and is not empty lies in MEM. -/
theorem le_of_blockFault_none {s : State} {n : Nat} (h : blockFault s n = none) : n = 0 ∨ s.i.toNat + n ≤ 4096 := by
  by_contra hout
  cases h.symm.trans (blockFault_of_outside (by omega) (by omega))

/-- SP stays in 0 to 16, so that its arithmetic does not wrap (R19, R20). -/
theorem sp_succ_val {sp : Fin 17} (h : sp.val < 16) : (sp + 1).val = sp.val + 1 := by
  simp [Fin.add_def]
  omega

theorem sp_pred_val {sp : Fin 17} (h : 0 < sp.val) : (sp - 1).val = sp.val - 1 := by
  simp [Fin.sub_def]
  omega

/-! ### The two answers of a handler -/

/-- LD Vx, K (R108): the least latched key loaded, or PC moved back. -/
def State.keyWait (s : State) (x : Reg) : State :=
  match s.leastKey with
  | some k => s.setReg x (BitVec.ofNat 8 k.val)
  | none => s.jump (s.pc - 2#16)

/-- What the handler of an instruction leaves where it raises no fault (`exec_of_noFault`). -/
def State.completed (s : State) : Instr → State
  | .cls => { s with fb := Vector.replicate 32 0#64 }
  | .ret => { s with sp := s.sp - 1, pc := s.stack[s.sp.val - 1]'(by omega) }
  | .jp nnn => s.jump (directAddress nnn)
  | .jpV0 nnn => s.jump (offsetAddress s nnn)
  | .call nnn =>
    { s with stack := s.stack.setIfInBounds s.sp.val s.pc, sp := s.sp + 1, pc := directAddress nnn }
  | .seByte x kk => s.skipIf (s.reg x == kk)
  | .sneByte x kk => s.skipIf (s.reg x != kk)
  | .seReg x y => s.skipIf (s.reg x == s.reg y)
  | .sneReg x y => s.skipIf (s.reg x != s.reg y)
  | .skp x => s.skipIf (s.keyAt (s.reg x) == some true)
  | .sknp x => s.skipIf (s.keyAt (s.reg x) == some false)
  | .ldByte x kk => s.setReg x kk
  | .addByte x kk => s.setReg x (s.reg x + kk)
  | .ldReg x y => s.setReg x (s.reg y)
  | .orReg x y => s.setReg x (s.reg x ||| s.reg y)
  | .andReg x y => s.setReg x (s.reg x &&& s.reg y)
  | .xorReg x y => s.setReg x (s.reg x ^^^ s.reg y)
  | .addReg x y => s.setRegFlag x (s.reg x + s.reg y) (carryFlag (s.reg x) (s.reg y))
  | .subReg x y => s.setRegFlag x (s.reg x - s.reg y) (notBorrowFlag (s.reg x) (s.reg y))
  | .shr x _ => s.setRegFlag x (s.reg x >>> 1) (lowBitFlag (s.reg x))
  | .subnReg x y => s.setRegFlag x (s.reg y - s.reg x) (notBorrowFlag (s.reg y) (s.reg x))
  | .shl x _ => s.setRegFlag x (s.reg x <<< 1) (highBitFlag (s.reg x))
  | .rnd x kk => { s.setReg x (Config.randomDraw s.draws &&& kk) with draws := s.draws + 1 }
  | .drw x y n =>
    ({ s with fb := (s.drawSprite x y n).fb } : State).setReg vF (collisionFlag (s.drawSprite x y n).hit)
  | .ldVxDt x => s.setReg x s.dt
  | .ldVxK x => s.keyWait x
  | .ldDtVx x => { s with dt := s.reg x }
  | .ldStVx x => { s with st := s.reg x }
  | .ldI nnn => { s with i := directAddress nnn }
  | .addI x => { s with i := s.i + zeroExtend (s.reg x) }
  | .ldF x => { s with i := glyphAddress (s.reg x) }
  | .ldB x => s.storeBytes s.i.toNat (decimalDigits (s.reg x))
  | .storeRegs x => s.storeBytes s.i.toNat (s.regsUpTo x)
  | .loadRegs x => s.loadRegsFrom s.i.toNat x

/-- What a handler leaves, by the fault of its check: the fault recorded, or the state `t`. -/
def State.unlessFault (s : State) (fault : Option (FaultCause × Nat)) (t : State) : State :=
  fault.elim t fun f => s.raise f.1 f.2

theorem State.checked_eq (s t : State) (n : Nat) : s.checked n t = .next (s.unlessFault (blockFault s n) t) := by
  by_cases hin : n = 0 ∨ s.i.toNat + n ≤ 4096
  · rw [s.checked_of_inside t hin, blockFault_of_inside hin]
    rfl
  · rw [s.checked_of_outside t (by omega) (by omega), blockFault_of_outside (by omega) (by omega)]
    rfl

theorem State.skipIfKey_eq (s : State) (x : Reg) (b : Bool) :
    s.skipIfKey x b = .next (s.unlessFault (keyFault s x) (s.skipIf (s.keyAt (s.reg x) == some b))) := by
  by_cases hgt : 15 < (s.reg x).toNat
  · rw [State.skipIfKey, s.keyAt_of_gt _ hgt, keyFault, if_pos hgt]
    rfl
  · rw [State.skipIfKey, s.keyAt_of_lt _ ⟨(s.reg x).toNat, by omega⟩ rfl, keyFault, if_neg hgt]
    rfl

/-- The check of RET and CALL, by whether the operation on the call stack answers. -/
theorem State.orRaise_some (s t : State) (c : FaultCause) : s.orRaise c (some t) = .next (s.unlessFault none t) := rfl

theorem State.orRaise_none (s t : State) (c : FaultCause) :
    s.orRaise c none = .next (s.unlessFault (some (c, s.sp.val)) t) := rfl

theorem exec_ret_eq (s : State) : exec .ret s = .next (s.unlessFault (handlerFault s .ret) (s.completed .ret)) := by
  by_cases hsp : s.sp.val = 0
  · have hpop : s.popPc = none := s.popPc_of_empty (by omega)
    rw [exec, execRet, hpop, s.orRaise_none (s.completed .ret), hsp, handlerFault, if_pos hsp]
  · have hpred : (⟨s.sp.val - 1, by omega⟩ : Fin 17) = s.sp - 1 := Fin.ext (sp_pred_val (by omega)).symm
    have hpop : s.popPc = some (s.completed .ret) := by rw [s.popPc_of_pos (by omega), hpred]; rfl
    rw [exec, execRet, hpop, s.orRaise_some, handlerFault, if_neg hsp]

theorem exec_call_eq (s : State) (nnn : Addr12) :
    exec (.call nnn) s = .next (s.unlessFault (handlerFault s (.call nnn)) (s.completed (.call nnn))) := by
  by_cases hsp : s.sp.val = 16
  · have hpush : s.push s.pc = none := s.push_of_full _ (by omega)
    rw [exec, execCall, hpush, Option.map_none, s.orRaise_none (s.completed (.call nnn)), hsp, handlerFault, if_pos hsp]
  · have hlt : s.sp.val < 16 := by omega
    have hsucc : (⟨s.sp.val + 1, by omega⟩ : Fin 17) = s.sp + 1 := Fin.ext (sp_succ_val hlt).symm
    have hset : s.stack.set s.sp.val s.pc hlt = s.stack.setIfInBounds s.sp.val s.pc :=
      Vector.ext fun j hj => by rw [Vector.getElem_set, Vector.getElem_setIfInBounds]
    rw [exec, execCall, s.push_of_lt _ hlt, hsucc, hset, Option.map_some, s.orRaise_some, handlerFault, if_neg hsp]
    rfl

theorem exec_ldVxK_eq (x : Reg) (s : State) : exec (.ldVxK x) s = .next (s.keyWait x) := by
  cases h : s.leastKey with
  | some k => simp only [exec_ldVxK_of_leastKey h, State.keyWait, h]
  | none => simp only [exec_ldVxK_of_noKey h, State.keyWait, h]

/-- Every handler answers a next state: the fault that R114 gives it recorded, or what it leaves when it completes. -/
theorem exec_eq (i : Instr) (s : State) :
    exec i s = .next (s.unlessFault (handlerFault s i) (s.completed i)) := by
  cases i with
  | ret => exact exec_ret_eq s
  | call nnn => exact exec_call_eq s nnn
  | skp x => exact s.skipIfKey_eq x true
  | sknp x => exact s.skipIfKey_eq x false
  | drw x y n => exact s.checked_eq _ n
  | ldB x => exact s.checked_eq _ 3
  | storeRegs x => exact s.checked_eq _ (x.val + 1)
  | loadRegs x => exact s.checked_eq _ (x.val + 1)
  | ldVxK x => exact exec_ldVxK_eq x s
  | _ => rfl

/-- A handler leaves the state it completes with, where its check raises nothing, and otherwise the recorded fault. -/
theorem exec_cases {i : Instr} {s t : State} (h : exec i s = .next t) :
    (∃ c info, handlerFault s i = some (c, info) ∧ t = s.raise c info) ∨
    (handlerFault s i = none ∧ t = s.completed i) := by
  rw [exec_eq] at h
  injection h with h
  cases hf : handlerFault s i with
  | some f => exact .inl ⟨f.1, f.2, rfl, by rw [← h, hf]; rfl⟩
  | none => exact .inr ⟨rfl, by rw [← h, hf]; rfl⟩

theorem exec_of_noFault {i : Instr} {s : State} (h : handlerFault s i = none) :
    exec i s = .next (s.completed i) := by
  rw [exec_eq, h]
  rfl

theorem exec_of_handlerFault {i : Instr} {s : State} {c : FaultCause} {info : Nat}
    (h : handlerFault s i = some (c, info)) : exec i s = .next (RaisedIn s c info) := by
  rw [exec_eq, h]
  rfl

/-! ### The fields of what a handler leaves -/

/-- The key wait writes a register or PC (R108). -/
theorem State.keyWait_cases (s : State) (x : Reg) :
    (∃ b, s.keyWait x = s.setReg x b) ∨ s.keyWait x = s.jump (s.pc - 2#16) := by
  unfold State.keyWait
  split
  · exact .inl ⟨_, rfl⟩
  · exact .inr rfl

theorem State.keyWait_frame (s : State) (x : Reg) :
    s.keyWait x = { s with v := (s.keyWait x).v, pc := (s.keyWait x).pc } := by
  rcases s.keyWait_cases x with ⟨b, h⟩ | h <;> rw [h] <;> rfl

@[simp] theorem State.keyWait_i (s : State) (x : Reg) : (s.keyWait x).i = s.i := by rw [s.keyWait_frame x]
@[simp] theorem State.keyWait_sp (s : State) (x : Reg) : (s.keyWait x).sp = s.sp := by rw [s.keyWait_frame x]
@[simp] theorem State.keyWait_stack (s : State) (x : Reg) : (s.keyWait x).stack = s.stack := by rw [s.keyWait_frame x]
@[simp] theorem State.keyWait_dt (s : State) (x : Reg) : (s.keyWait x).dt = s.dt := by rw [s.keyWait_frame x]
@[simp] theorem State.keyWait_st (s : State) (x : Reg) : (s.keyWait x).st = s.st := by rw [s.keyWait_frame x]
@[simp] theorem State.keyWait_key (s : State) (x : Reg) : (s.keyWait x).key = s.key := by rw [s.keyWait_frame x]
@[simp] theorem State.keyWait_fb (s : State) (x : Reg) : (s.keyWait x).fb = s.fb := by rw [s.keyWait_frame x]
@[simp] theorem State.keyWait_ir (s : State) (x : Reg) : (s.keyWait x).ir = s.ir := by rw [s.keyWait_frame x]
@[simp] theorem State.keyWait_mem (s : State) (x : Reg) : (s.keyWait x).mem = s.mem := by rw [s.keyWait_frame x]
@[simp] theorem State.keyWait_fault (s : State) (x : Reg) : (s.keyWait x).fault = s.fault := by rw [s.keyWait_frame x]

/-- The fields that no handler writes: KEY and IR (R24, R26), and FAULT where it raises nothing. -/
theorem State.completed_keeps (s : State) (i : Instr) :
    (s.completed i).key = s.key ∧ (s.completed i).ir = s.ir ∧ (s.completed i).fault = s.fault := by
  cases i <;> simp [State.completed]

/-- The writers of I (R18). -/
theorem State.completed_i {s : State} {i : Instr} (h : (s.completed i).i ≠ s.i) :
    (∃ nnn, i = .ldI nnn) ∨ (∃ x, i = .addI x) ∨ (∃ x, i = .ldF x) := by
  cases i with
  | ldI nnn => exact .inl ⟨nnn, rfl⟩
  | addI x => exact .inr (.inl ⟨x, rfl⟩)
  | ldF x => exact .inr (.inr ⟨x, rfl⟩)
  | _ => simp [State.completed] at h

/-- The writer of DT (R22). -/
theorem State.completed_dt {s : State} {i : Instr} (h : (s.completed i).dt ≠ s.dt) : ∃ x, i = .ldDtVx x := by
  cases i with
  | ldDtVx x => exact ⟨x, rfl⟩
  | _ => simp [State.completed] at h

/-- The writer of ST (R23). -/
theorem State.completed_st {s : State} {i : Instr} (h : (s.completed i).st ≠ s.st) : ∃ x, i = .ldStVx x := by
  cases i with
  | ldStVx x => exact ⟨x, rfl⟩
  | _ => simp [State.completed] at h

/-- The writer of a pushed slot (R20, R21). -/
theorem State.completed_stack {s : State} {i : Instr} (h : (s.completed i).stack ≠ s.stack) : ∃ nnn, i = .call nnn := by
  cases i with
  | call nnn => exact ⟨nnn, rfl⟩
  | _ => simp [State.completed] at h

/-- The writers of SP (R20). -/
theorem State.completed_sp {s : State} {i : Instr} (h : (s.completed i).sp ≠ s.sp) :
    i = .ret ∨ ∃ nnn, i = .call nnn := by
  cases i with
  | ret => exact .inl rfl
  | call nnn => exact .inr ⟨nnn, rfl⟩
  | _ => simp [State.completed] at h

/-- The writers of FB (R25). -/
theorem State.completed_fb {s : State} {i : Instr} (h : (s.completed i).fb ≠ s.fb) :
    i = .cls ∨ ∃ x y n, i = .drw x y n := by
  cases i with
  | cls => exact .inl rfl
  | drw x y n => exact .inr ⟨x, y, n, rfl⟩
  | _ => simp [State.completed] at h

/-- MEM after any instruction: as many bytes as R40's table lists, written from I up. -/
theorem State.completed_mem (s : State) (i : Instr) :
    ∃ bs : List Byte, bs.length = bytesWritten i ∧ (s.completed i).mem = s.mem.writeBytes s.i.toNat bs := by
  cases i with
  | ldB x => exact ⟨decimalDigits (s.reg x), rfl, rfl⟩
  | storeRegs x => exact ⟨s.regsUpTo x, s.regsUpTo_length x, rfl⟩
  | _ => exact ⟨[], rfl, by simp [State.completed, Memory.writeBytes]⟩

/-- Registers after any instruction: none but its results, and VF where it writes a flag (R11, R13). -/
theorem State.completed_reg (s : State) {i : Instr} {r : Reg} (hr : r ∉ resultRegs i)
    (hflag : writesFlag i = true → r ≠ 0xF) : (s.completed i).reg r = s.reg r := by
  cases i with
  | ldVxK x =>
    rcases s.keyWait_cases x with ⟨b, h⟩ | h <;> rw [State.completed, h]
    · exact State.reg_setReg_of_ne (Ne.symm (by simpa [resultRegs] using hr)) b
    · rfl
  | loadRegs x =>
    have hgt : ¬r.val ≤ x.val := by simpa [resultRegs] using hr
    rw [State.completed, State.reg_loadRegsFrom, if_neg hgt]
  | drw x y n => exact State.reg_setReg_of_ne (Ne.symm (hflag rfl)) _
  | addReg x | subReg x | shr x | subnReg x | shl x =>
    rw [State.completed, State.reg_setRegFlag, if_neg (hflag rfl), if_neg (by simpa [resultRegs] using hr)]
  | ldByte x | addByte x | ldReg x | orReg x | andReg x | xorReg x | rnd x | ldVxDt x =>
    exact State.reg_setReg_of_ne (Ne.symm (by simpa [resultRegs] using hr)) _
  | _ => exact State.reg_congr (by simp [State.completed]) r

/-! ### Flags as numbers -/

theorem flagOf_toNat_le (c : Bool) : (flagOf c).toNat ≤ 1 := by
  cases c <;> decide

theorem lowBitFlag_toNat (a : Byte) : (lowBitFlag a).toNat = a.toNat % 2 := by
  rw [lowBitFlag, BitVec.toNat_and]
  exact Nat.and_two_pow_sub_one_eq_mod a.toNat 1

theorem highBitFlag_toNat (a : Byte) : (highBitFlag a).toNat = a.toNat / 128 := by
  have hlt : a.toNat / 128 < 2 := by omega
  rw [highBitFlag, BitVec.toNat_ushiftRight, BitVec.toNat_and, Nat.shiftRight_and_distrib, Nat.shiftRight_eq_div_pow]
  exact (Nat.and_two_pow_sub_one_eq_mod _ 1).trans (Nat.mod_eq_of_lt hlt)

/-- A flag is at most 1 (R13). -/
theorem State.completed_flag (s : State) {i : Instr} (h : writesFlag i = true) :
    ((s.completed i).reg 0xF).toNat ≤ 1 := by
  cases i with
  | addReg | subReg | subnReg => exact (s.reg_setRegFlag_vF _ _ _) ▸ flagOf_toNat_le _
  | shr x =>
    rw [State.completed, State.reg_setRegFlag_vF, lowBitFlag_toNat]
    omega
  | shl x =>
    rw [State.completed, State.reg_setRegFlag_vF, highBitFlag_toNat]
    omega
  | drw => exact (State.reg_setReg_self _ _ _) ▸ flagOf_toNat_le _
  | _ => cases h

theorem byte_eq_zero_or_one {b : Byte} (h : b.toNat ≤ 1) : b = 0#8 ∨ b = 1#8 := by
  rcases Nat.le_one_iff_eq_zero_or_eq_one.1 h with h | h
  · exact .inl (BitVec.eq_of_toNat_eq h)
  · exact .inr (BitVec.eq_of_toNat_eq h)

/-! ### The obligations -/

/-- Settles O52: a raised fault writes no register, and a completed instruction its results and its flag, which is at most
1. -/
theorem onlyFlagInstructionsWriteVf : Obligations.OnlyFlagInstructionsWriteVf := by
  intro s t i h
  rcases exec_cases h with ⟨c, info, _, rfl⟩ | ⟨_, rfl⟩
  · exact ⟨fun _ _ _ => rfl, fun _ _ hnone => nomatch hnone⟩
  · exact ⟨fun r => s.completed_reg, fun hflag _ _ => byte_eq_zero_or_one (s.completed_flag hflag)⟩

/-- Settles O53: a raised fault leaves I, and of the completed instructions three write it. -/
theorem onlyIndexInstructionsWriteI : Obligations.OnlyIndexInstructionsWriteI := by
  intro s t i h
  rcases exec_cases h with ⟨c, info, _, rfl⟩ | ⟨_, rfl⟩
  · exact absurd rfl
  · exact State.completed_i

/-- Settles O54: a raised fault leaves the latch, IR and the timers; each timer has one writer that completes. -/
theorem timersLatchAndIrHaveTheirOwnWriters : Obligations.TimersLatchAndIrHaveTheirOwnWriters := by
  intro s t i h
  rcases exec_cases h with ⟨c, info, _, rfl⟩ | ⟨_, rfl⟩
  · exact ⟨rfl, rfl, absurd rfl, absurd rfl⟩
  · obtain ⟨hkey, hir, _⟩ := s.completed_keeps i
    exact ⟨hkey, hir, State.completed_dt, State.completed_st⟩

/-- Settles O55: a raised fault leaves the stack and the framebuffer; the others by their writers. -/
theorem stackAndFramebufferHaveTheirOwnWriters : Obligations.StackAndFramebufferHaveTheirOwnWriters := by
  intro s t i h
  rcases exec_cases h with ⟨c, info, _, rfl⟩ | ⟨_, rfl⟩
  · exact ⟨absurd rfl, absurd rfl, absurd rfl⟩
  · exact ⟨State.completed_stack, State.completed_sp, State.completed_fb⟩

/-- Settles O56: a completed instruction's writes to MEM are one block from I, and a raised fault writes nothing. -/
theorem onlyTheListedBytesAreWritten : Obligations.OnlyTheListedBytesAreWritten := by
  intro s t i h b hb
  rcases exec_cases h with ⟨c, info, _, rfl⟩ | ⟨_, rfl⟩
  · rfl
  · obtain ⟨bs, hlen, hmem⟩ := s.completed_mem i
    rw [State.readByte, hmem]
    exact Memory.read_writeBytes_outside _ (hlen ▸ hb)

end Sys2Proof.Machine
end

section
/-! PROOFS. The cycle (40_cycle.md R70; 60_exceptions.md R118, R119): it takes the fault that R119's order gives, or leaves
what the handler of the word at PC completes with. -/

namespace Sys2Proof.Machine

/-! ### The fault of a cycle -/

/-- A handler's check reads what fetch and advance do not write. -/
theorem handlerFault_advance (s : State) (w : Word) (i : Instr) : handlerFault (s.advance w) i = handlerFault s i := by
  cases i <;> rfl

/-- A fault raised after the advance records the address before it (R14, R114). -/
theorem State.raise_advance_fault (s : State) (w : Word) (c : FaultCause) (info : Nat) :
    ((s.advance w).raise c info).fault = some { cause := c, addr := s.pc, word := some w, info := info } := by
  simp

/-! ### The fetch (R39) -/

theorem State.fetch_of_pc_ge {s : State} (h : 4096 ≤ s.pc.toNat) : s.fetch = .outside s.pc.toNat := by
  rw [State.fetch, if_pos h]

theorem State.fetch_of_pc_last {s : State} (h : s.pc.toNat = 0xFFF) : s.fetch = .outside 0x1000 := by
  rw [State.fetch, if_neg (by simp [h]), if_pos (by simp [h])]

theorem State.fetch_eq_word {s : State} {w : Word} (h : s.fetch = .word w) :
    s.pc.toNat + 1 < 4096 ∧ w = wordAtPc s := by
  by_cases hin : s.pc.toNat + 1 < 4096
  · rw [State.fetch_of_inside hin] at h
    injection h with h
    exact ⟨hin, h.symm⟩
  · by_cases hlast : s.pc.toNat = 0xFFF
    · cases h.symm.trans (State.fetch_of_pc_last hlast)
    · cases h.symm.trans (State.fetch_of_pc_ge (by omega))

theorem cycle_of_outside {s : State} {a : Nat} (hf : s.fault = none) (h : s.fetch = .outside a) :
    cycle s = .next (s.takeFault { cause := .memoryBounds, addr := s.pc, word := none, info := a }) := by
  simp only [cycle, hf, h]

/-! ### `cycleFault` in R119's order -/

theorem cycleFault_of_outside {s : State} {a : Nat} (h : s.fetch = .outside a) :
    cycleFault s = some { cause := .memoryBounds, addr := s.pc, word := none, info := a } := by
  by_cases hge : 4096 ≤ s.pc.toNat
  · cases h.symm.trans (State.fetch_of_pc_ge hge)
    rw [cycleFault, if_pos hge]
  · by_cases hlast : s.pc.toNat = 0xFFF
    · cases h.symm.trans (State.fetch_of_pc_last hlast)
      rw [cycleFault, if_neg hge, if_pos hlast]
    · cases h.symm.trans (State.fetch_of_inside (s := s) (by omega))

theorem cycleFault_of_rejected {s : State} {e : DecodeError} (hin : s.pc.toNat + 1 < 4096)
    (h : decodeWord (wordAtPc s) = .error e) :
    cycleFault s = some { cause := .decode, addr := s.pc, word := some (wordAtPc s), info := (wordAtPc s).toNat } := by
  rw [cycleFault, if_neg (by omega), if_neg (by omega), h]

theorem cycleFault_of_handlerFault {s : State} {i : Instr} {f : FaultCause × Nat} (hin : s.pc.toNat + 1 < 4096)
    (hi : decodeWord (wordAtPc s) = .ok i) (h : handlerFault s i = some f) :
    cycleFault s = some { cause := f.1, addr := s.pc, word := some (wordAtPc s), info := f.2 } := by
  rw [cycleFault, if_neg (by omega), if_neg (by omega), hi]
  simp only [h]

theorem cycleFault_of_noFault {s : State} {i : Instr} (hin : s.pc.toNat + 1 < 4096)
    (hi : decodeWord (wordAtPc s) = .ok i) (h : handlerFault s i = none) : cycleFault s = none := by
  rw [cycleFault, if_neg (by omega), if_neg (by omega), hi]
  simp only [h]

/-- The address in the record of a cycle's fault is PC (R114). -/
theorem cycleFault_addr {s : State} {r : FaultRecord} (h : cycleFault s = some r) : r.addr = s.pc := by
  cases hw : s.fetch with
  | outside a => cases h.symm.trans (cycleFault_of_outside hw); rfl
  | word w =>
    obtain ⟨hin, -⟩ := State.fetch_eq_word hw
    cases hi : decodeWord (wordAtPc s) with
    | error e => cases h.symm.trans (cycleFault_of_rejected hin hi); rfl
    | ok i =>
      cases hh : handlerFault s i with
      | some f => cases h.symm.trans (cycleFault_of_handlerFault hin hi hh); rfl
      | none => cases h.symm.trans (cycleFault_of_noFault hin hi hh)

/-! ### The two answers of a cycle -/

/-- A cycle of a core that has not faulted, said once: it takes the fault of `cycleFault`, or it fetches and decodes an
instruction whose check raises nothing, and leaves what that instruction completes with. -/
theorem cycle_answers {s : State} (hf : s.fault = none) :
    (∃ r, cycleFault s = some r ∧ cycle s = .next (s.takeFault r)) ∨
    (∃ i, cycleFault s = none ∧ s.pc.toNat + 1 < 4096 ∧ decodeWord (wordAtPc s) = .ok i ∧ handlerFault s i = none ∧
      cycle s = .next ((s.advance (wordAtPc s)).completed i)) := by
  cases hw : s.fetch with
  | outside a => exact .inl ⟨_, cycleFault_of_outside hw, cycle_of_outside hf hw⟩
  | word w =>
    obtain ⟨hin, rfl⟩ := State.fetch_eq_word hw
    have hcycle := cycle_of_fetched hf hw
    cases hi : decodeWord (wordAtPc s) with
    | error e => exact .inl ⟨_, cycleFault_of_rejected hin hi, hcycle.trans (runWord_of_rejected hi)⟩
    | ok i =>
      rw [runWord_of_decodes hi, exec_eq, handlerFault_advance] at hcycle
      cases hh : handlerFault s i with
      | some f =>
        rw [hh] at hcycle
        have hend := endCycle_of_fault s (s.raise_advance_fault (wordAtPc s) f.1 f.2)
        exact .inl ⟨_, cycleFault_of_handlerFault hin hi hh, hcycle.trans hend⟩
      | none =>
        rw [hh] at hcycle
        obtain ⟨-, -, hnone⟩ := (s.advance (wordAtPc s)).completed_keeps i
        exact .inr ⟨i, cycleFault_of_noFault hin hi hh, hin, rfl, hh,
          hcycle.trans (endCycle_of_none s (hnone.trans hf))⟩

/-- A cycle of a core that has not faulted answers a state that holds the fault of `cycleFault`. -/
theorem cycle_records_cycleFault {s : State} (hf : s.fault = none) :
    ∃ t, cycle s = .next t ∧ t.fault = cycleFault s := by
  rcases cycle_answers hf with ⟨r, hr, hcycle⟩ | ⟨i, hnone, -, -, -, hcycle⟩
  · exact ⟨_, hcycle, hr.symm⟩
  · obtain ⟨-, -, hkept⟩ := (s.advance (wordAtPc s)).completed_keeps i
    exact ⟨_, hcycle, (hkept.trans hf).trans hnone.symm⟩

theorem cycle_of_faulted {s : State} (hf : s.fault ≠ none) : cycle s = .next s := by
  obtain ⟨r, hr⟩ := Option.ne_none_iff_exists'.1 hf
  simp only [cycle, hr]

/-- On a core that has not faulted, a cycle that ends in a fault takes it from its start (R118). -/
theorem cycle_of_cycleFault {s : State} {r : FaultRecord} (hf : s.fault = none) (h : cycleFault s = some r) :
    cycle s = .next (s.takeFault r) := by
  rcases cycle_answers hf with ⟨q, hq, hcycle⟩ | ⟨i, hnone, -⟩
  · cases h.symm.trans hq
    exact hcycle
  · cases h.symm.trans hnone

/-! ### PC after an instruction (R15) -/

/-- A skip run after the advance leaves A + 4 or A + 2. -/
theorem State.skipIf_advance_pc (s : State) (w : Word) (c : Bool) :
    ((s.advance w).skipIf c).pc = pcAfterSkip s.pc c := by
  rw [State.skipIf_pc, State.advance_pc, pcAfterSkip, BitVec.add_assoc]
  rfl

theorem State.keyAt_beq_some (s : State) (a : Byte) (b : Bool) :
    (s.keyAt a == some b) = decide (∃ k : Fin 16, k.val = a.toNat ∧ s.key[k] = b) := by
  by_cases hlt : a.toNat < 16
  · obtain ⟨j, hj⟩ : ∃ j : Fin 16, a.toNat = j.val := ⟨⟨a.toNat, hlt⟩, rfl⟩
    rw [s.keyAt_of_lt a j hj, Bool.eq_iff_iff, decide_eq_true_eq, beq_iff_eq, Option.some.injEq]
    exact ⟨fun h => ⟨j, hj.symm, h⟩, fun ⟨k, hk, h⟩ => (Fin.ext (hk.trans hj) : k = j) ▸ h⟩
  · rw [s.keyAt_of_gt a (by omega), Bool.eq_iff_iff, decide_eq_true_eq]
    exact ⟨fun h => by simp at h, fun ⟨k, hk, _⟩ => absurd k.isLt (by omega)⟩

/-- The key wait goes on where some key is latched, and back to itself where none is (R108). -/
theorem State.keyWait_advance_pc (s : State) (w : Word) (x : Reg) :
    ((s.advance w).keyWait x).pc = if ∃ k : Fin 16, s.key[k] = true then s.pc + 2#16 else s.pc := by
  unfold State.keyWait
  split
  · next k hk =>
    have hlatched := List.find?_some (p := fun k : Fin 16 => s.key[k]) hk
    rw [if_pos ⟨k, hlatched⟩]
    rfl
  · next hk =>
    have hnone : ¬∃ k : Fin 16, s.key[k] = true := by simpa [State.leastKey] using hk
    rw [if_neg hnone, State.jump_pc, State.advance_pc, BitVec.add_sub_cancel]

/-- R15's table, for an instruction that completes. -/
theorem State.completed_advance_pc (s : State) (w : Word) (i : Instr) :
    ((s.advance w).completed i).pc = pcAfter s i := by
  cases i with
  | seByte | sneByte | seReg | sneReg => exact s.skipIf_advance_pc w _
  | skp x | sknp x => exact (s.skipIf_advance_pc w _).trans (congrArg _ (s.keyAt_beq_some _ _))
  | ldVxK x => exact s.keyWait_advance_pc w x
  | _ => rfl

/-! ### The obligations -/

/-- Settles O8: the fetch of each range of R39, and the cycle that takes its fault. -/
theorem fetchOutsideMemoryFaults : Obligations.FetchOutsideMemoryFaults := by
  intro s hrun hf
  have hcycle : ∀ a, s.fetch = .outside a → step s = .next { s.popAction with
      fault := some { cause := .memoryBounds, addr := s.pc, word := none, info := a } } := fun a h => by
    rw [step_of_runsCycle hrun]
    exact cycle_of_outside (s := s.popAction) hf h
  exact ⟨fun h => hcycle _ (State.fetch_of_pc_ge h), fun h => hcycle _ (State.fetch_of_pc_last h),
    fun h => State.fetch_of_inside (by omega)⟩

/-- Settles O10: a cycle on a faulted core is the identity. -/
theorem faultedCoreExecutesNoCycle : Obligations.FaultedCoreExecutesNoCycle := by
  intro s hrun hf
  exact ⟨_, (step_of_runsCycle hrun).trans (cycle_of_faulted (s := s.popAction) hf), rfl⟩

/-- Settles O12: the cycle's fault does not read the schedule, so that of the popped state is that of the state. -/
theorem cycleRecordsExactlyTheFirstFault : Obligations.CycleRecordsExactlyTheFirstFault := by
  intro s hrun hf
  rw [step_of_runsCycle hrun]
  exact cycle_records_cycleFault (s := s.popAction) hf

/-- Settles O11: the recorded fault is the cycle's fault, taken from the start state; the faulted core then stands still. -/
theorem faultsArePreciseAndFatal : Obligations.FaultsArePreciseAndFatal := by
  intro s t r hrun hf hstep hr
  obtain ⟨t', hstep', hfault⟩ := cycleRecordsExactlyTheFirstFault s hrun hf
  cases hstep.symm.trans hstep'
  have hcf : cycleFault s = some r := hfault.symm.trans hr
  have ht := (step_of_runsCycle hrun).trans (cycle_of_cycleFault (s := s.popAction) hf hcf)
  cases hstep.symm.trans ht
  refine ⟨rfl, cycleFault_addr hcf, hcf, fun hact => ?_⟩
  have hboot : (s.popAction.takeFault r).boot = .loaded := hrun.2
  rw [step_of_runsCycle ⟨hact, hboot⟩]
  exact cycle_of_faulted nofun

/-- Settles O13: a step that faults leaves the PC of its start, and one that does not completes the instruction. -/
theorem eachInstructionLeavesPcAsTheTableSays : Obligations.EachInstructionLeavesPcAsTheTableSays := by
  intro s t i hrun hf _ hi hstep
  rw [step_of_runsCycle hrun] at hstep
  rcases cycle_answers (s := s.popAction) hf with ⟨r, -, hcycle⟩ | ⟨j, -, -, hj, -, hcycle⟩
  · cases hstep.symm.trans hcycle
    exact ⟨nofun, fun _ => rfl⟩
  · cases hi.symm.trans hj
    cases hstep.symm.trans hcycle
    obtain ⟨-, -, hkept⟩ := (s.popAction.advance (wordAtPc s)).completed_keeps i
    exact ⟨fun _ => s.popAction.completed_advance_pc _ i, fun hne => absurd (hkept.trans hf) hne⟩

end Sys2Proof.Machine
end

section
/-! PROOFS. What a step can do, said once over the actions of R72, and what every step keeps: the memory's form, the truth
of a recorded fault, FONT, and the boot order (70_reset_and_hazards.md R128 to R133). -/

namespace Sys2Proof.Machine

/-! ### The answers of a step -/

/-- The next states of `s`: a cycle on a faulted core, one that faults, one that completes an instruction, and the host's
other actions, Load by its success. -/
inductive StepsTo (s : State) : State → Prop
  | faulted (hrun : s.runsCycle) (hf : s.fault ≠ none) : StepsTo s s.popAction
  | fault {r : FaultRecord} (hrun : s.runsCycle) (hr : cycleFault s = some r) : StepsTo s (s.popAction.takeFault r)
  | completed {i : Instr} (hrun : s.runsCycle) (hf : s.fault = none)
      (hi : handlerFault (s.popAction.advance (wordAtPc s)) i = none) :
      StepsTo s ((s.popAction.advance (wordAtPc s)).completed i)
  | setKey (k : Fin 16) (b : Bool) : StepsTo s (s.popAction.setKey k b)
  | timerDecay : StepsTo s s.popAction.timerDecay
  | read : StepsTo s s.popAction
  | reset (hact : s.nextAction = .reset) : StepsTo s s.popAction.hostReset
  | loadImage {bytes : List Byte} (hact : s.nextAction = .load (some bytes)) (hreset : s.popAction.justReset = true)
      (hlen : 0 < bytes.length ∧ bytes.length ≤ 3584) : StepsTo s (s.popAction.loadImage bytes)
  | failLoad (hreset : s.popAction.justReset = true) : StepsTo s s.popAction.failLoad

theorem stepsTo_of_cycle {s t : State} (hrun : s.runsCycle) (h : cycle s.popAction = .next t) : StepsTo s t := by
  by_cases hf : s.fault = none
  · rcases cycle_answers (s := s.popAction) hf with ⟨r, hr, hcycle⟩ | ⟨i, -, -, -, hi, hcycle⟩
    · cases h.symm.trans hcycle
      exact .fault hrun hr
    · cases h.symm.trans hcycle
      exact .completed hrun hf ((handlerFault_advance _ _ i).trans hi)
  · cases h.symm.trans (cycle_of_faulted (s := s.popAction) hf)
    exact .faulted hrun hf

theorem stepsTo_of_step {s t : State} (h : step s = .next t) : StepsTo s t := by
  unfold step at h
  cases hact : s.nextAction with
  | cycle =>
    rw [hact] at h
    obtain ⟨hboot, hcycle⟩ := requestCycle_cases h
    exact stepsTo_of_cycle ⟨hact, hboot⟩ hcycle
  | setKey k b => rw [hact] at h; cases h; exact .setKey k b
  | timerDecay => rw [hact] at h; cases h; exact .timerDecay
  | read => rw [hact] at h; cases h; exact .read
  | reset => rw [hact] at h; cases h; exact .reset hact
  | load image =>
    rw [hact] at h
    obtain ⟨hreset, ⟨bytes, rfl, hlen, rfl⟩ | rfl⟩ := load_cases h
    · exact .loadImage hact hreset (of_decide_eq_true hlen)
    · exact .failLoad hreset

/-! ### What an instruction keeps of the machine -/

/-- The check of a handler covers the bytes it writes (R40, R100). -/
theorem bytesWritten_inside {s : State} {i : Instr} (h : handlerFault s i = none) :
    bytesWritten i = 0 ∨ s.i.toNat + bytesWritten i ≤ 4096 := by
  cases i with
  | ldB x => exact le_of_blockFault_none h
  | storeRegs x => exact le_of_blockFault_none h
  | _ => exact .inl rfl

/-- An instruction that completes keeps the memory's form. -/
theorem State.completed_wf {s : State} {i : Instr} (hwf : s.wf) (h : handlerFault s i = none) :
    (s.completed i).wf := by
  obtain ⟨bs, hlen, hmem⟩ := s.completed_mem i
  rw [State.wf, hmem]
  rcases bytesWritten_inside h with h0 | hin
  · rw [List.eq_nil_of_length_eq_zero (hlen.trans h0)]
    exact hwf
  · exact Memory.wf_writeBytes hwf (hlen ▸ hin)

theorem State.completed_keeps_host_fields {s : State} {i : Instr} (h : handlerFault s i = none) :
    (s.completed i).font = s.font ∧ (s.completed i).boot = s.boot := by
  obtain ⟨hfont, -, hboot⟩ := exec_keeps_host_fields (exec_of_noFault h)
  exact ⟨hfont, hboot⟩

/-! ### The reset state -/

/-- The font's 80 bytes are written inside MEM (R29, R30). -/
theorem State.resetWith_wf (font : Vector Byte 80) : (State.resetWith font).wf := by
  rw [State.wf, State.resetWith_mem]
  exact Memory.wf_writeBytes ⟨.nil, by simp⟩ (by rw [Vector.length_toList]; omega)

/-- A Load finds a state just produced by Reset where every field but the draws and the schedule is as Reset leaves it. -/
theorem State.popAction_justReset_iff (s : State) : s.popAction.justReset = true ↔
    s = { State.resetWith s.font with draws := s.draws, schedule := s.schedule } := by
  rw [State.justReset_iff]
  exact ⟨fun h => congrArg (fun u : State => { u with schedule := s.schedule }) h, fun h => congrArg State.popAction h⟩

theorem State.boot_of_justReset {s : State} (h : s.popAction.justReset = true) : s.boot = .awaitingLoad :=
  congrArg State.boot (s.popAction.justReset_iff.1 h)

theorem State.fault_of_justReset {s : State} (h : s.popAction.justReset = true) : s.fault = none :=
  congrArg State.fault (s.popAction.justReset_iff.1 h)

/-! ### The step of Load -/

theorem step_of_load {s : State} {image : Option (List Byte)} (h : s.nextAction = .load image) :
    step s = load image s.popAction := by
  simp only [step, h, perform]

theorem load_of_good {s : State} {bytes : List Byte} (hreset : s.justReset = true)
    (hlen : 0 < bytes.length ∧ bytes.length ≤ 3584) : load (some bytes) s = .next (s.loadImage bytes) := by
  have hloads : imageLoads bytes = true := decide_eq_true hlen
  simp only [load, if_pos hreset, if_pos hloads]

theorem load_of_bad {s : State} {image : Option (List Byte)} (hreset : s.justReset = true)
    (hbad : ∀ bytes, image = some bytes → bytes.length = 0 ∨ 3584 < bytes.length) :
    load image s = .next s.failLoad := by
  cases image with
  | none => simp only [load, if_pos hreset]
  | some bytes =>
    have hfails : ¬imageLoads bytes = true := fun h => by
      obtain ⟨hpos, hmax⟩ := of_decide_eq_true h
      rcases hbad bytes rfl with h0 | hlong
      · omega
      · exact absurd hmax (Nat.not_le.2 hlong)
    simp only [load, if_pos hreset, if_neg hfails]

theorem load_of_late {s : State} (image : Option (List Byte)) (h : ¬s.justReset = true) :
    load image s = .refused .loadOutOfOrder := by
  simp only [load, if_neg h]

theorem step_of_cycle_not_loaded {s : State} (hact : s.nextAction = .cycle) (hboot : s.boot ≠ .loaded) :
    step s = .refused .noProgramLoaded := by
  rw [step, hact]
  exact requestCycle_of_not_loaded (s := s.popAction) hboot

/-! ### The invariants -/

/-- Settles O14: a cycle writes inside MEM or not at all, Reset seeds the font, a Load that succeeds writes an image that
fits, and nothing else writes MEM. -/
theorem stepKeepsMemoryCanonical : Obligations.StepKeepsMemoryCanonical := by
  intro s t hwf hstep
  cases stepsTo_of_step hstep with
  | completed hrun hf hi => exact State.completed_wf (s := s.popAction.advance _) hwf hi
  | reset hact => exact State.resetWith_wf s.font
  | loadImage hact hreset hlen => exact Memory.wf_writeBytes hwf (by simp only [Config.progOrigin]; omega)
  | faulted | fault | setKey | timerDecay | read | failLoad => exact hwf

/-- Settles O15: a cycle records its own fault or none, Reset and a successful Load leave none, and what the other actions
write is not read by the fault of the instruction at PC. -/
theorem stepKeepsTheFaultRecordTrue : Obligations.StepKeepsTheFaultRecordTrue := by
  intro s t htrue hstep
  cases stepsTo_of_step hstep with
  | fault hrun hr => exact .inr hr.symm
  | completed hrun hf hi =>
    obtain ⟨-, -, hkept⟩ := (s.popAction.advance (wordAtPc s)).completed_keeps _
    exact .inl (hkept.trans hf)
  | reset hact => exact .inl rfl
  | loadImage hact hreset hlen => exact .inl (State.fault_of_justReset (s := s) hreset)
  | faulted | setKey | timerDecay | read | failLoad => exact htrue

/-- Settles O16: the font is written inside MEM, and Reset records no fault. -/
theorem resetMeetsTheInvariants : Obligations.ResetMeetsTheInvariants :=
  fun font => ⟨State.resetWith_wf font, .inl rfl⟩

/-- Settles O57: FONT is no instruction's to write, and Reset seeds the FONT of the state it is performed on. -/
theorem noStepChangesTheFont : Obligations.NoStepChangesTheFont := by
  intro s t hstep
  cases stepsTo_of_step hstep with
  | completed hrun hf hi => exact (State.completed_keeps_host_fields hi).1
  | faulted | fault | setKey | timerDecay | read | reset | loadImage | failLoad => rfl

/-- Settles O18: the equality is the model's law, and the glyphs are read from the closed reset memory. -/
theorem resetHoldsTheDefaultFont : Obligations.ResetHoldsTheDefaultFont :=
  ⟨resetWith_defaultFont.symm, by decide, by decide⟩

theorem decayed_toNat (b : Byte) : (decayed b).toNat = if b.toNat > 0 then b.toNat - 1 else 0 := by
  by_cases h : b = 0#8
  · simp [decayed, h]
  · have hpos : 0 < b.toNat := Nat.pos_of_ne_zero fun h0 => h (BitVec.eq_of_toNat_eq h0)
    rw [decayed, if_neg h, if_pos hpos]
    exact BitVec.toNat_sub_of_le hpos

/-- Settles O20: the step decays each timer on its own. -/
theorem timerDecayCountsTowardZero : Obligations.TimerDecayCountsTowardZero := by
  intro s hact
  exact ⟨_, step_of_timerDecay hact, decayed_toNat s.dt, decayed_toNat s.st, rfl⟩

/-! ### Load and the boot order -/

/-- Settles O22: the state that Load finds has the reset memory, which is canonical, so each address of the image reads its
byte and every other address as before. -/
theorem loadCopiesTheImage : Obligations.LoadCopiesTheImage := by
  intro s image hact hreset hpos hmax
  have hwf : s.mem.wf := by
    rw [hreset]
    exact State.resetWith_wf s.font
  refine ⟨_, (step_of_load hact).trans (load_of_good (s.popAction_justReset_iff.2 hreset) ⟨hpos, hmax⟩),
    fun j hj => ?_, fun b hb => Memory.read_writeBytes_outside s.mem hb, rfl⟩
  have hin : 0x200 ≤ 0x200 + j ∧ 0x200 + j < 0x200 + image.length := by omega
  refine (Memory.read_writeBytes hwf.1 0x200 image (0x200 + j)).trans ?_
  rw [if_pos hin, Nat.add_sub_cancel_left, List.getD_eq_getElem _ _ hj]

/-- Settles O23: the two refusals and the failed Load by their steps; of the next states of a failed Load only Reset's has
another boot phase. -/
theorem badLoadWritesNothingAndForbidsCycles : Obligations.BadLoadWritesNothingAndForbidsCycles := by
  refine ⟨fun s image hact => ⟨fun hreset hbad => ?_, fun hne => ?_⟩, fun s hact hboot => ?_,
    fun s t hboot hstep hne => ?_⟩
  · exact (step_of_load hact).trans (load_of_bad (s.popAction_justReset_iff.2 hreset) hbad)
  · exact (step_of_load hact).trans (load_of_late image (mt s.popAction_justReset_iff.1 hne))
  · exact step_of_cycle_not_loaded hact (by rw [hboot]; nofun)
  · cases stepsTo_of_step hstep with
    | faulted hrun | fault hrun | completed hrun => cases hboot.symm.trans hrun.2
    | setKey | timerDecay | read => exact absurd hboot hne
    | reset hact => exact ⟨hact, rfl⟩
    | loadImage _ hreset | failLoad hreset => cases hboot.symm.trans (State.boot_of_justReset hreset)

/-- Settles O58: of the next states of a core with no program loaded, only a successful Load's is loaded. -/
theorem noCycleBeforeASuccessfulLoad : Obligations.NoCycleBeforeASuccessfulLoad := by
  refine ⟨fun s => step_of_cycle_not_loaded, fun s t hboot hstep hloaded => ?_, fun s image hboot hact => ?_,
    fun s hact => ⟨_, step_of_reset hact, rfl⟩⟩
  · cases stepsTo_of_step hstep with
    | faulted hrun | fault hrun | completed hrun => exact absurd hrun.2 hboot
    | setKey | timerDecay | read => exact absurd hloaded hboot
    | reset | failLoad => cases hloaded
    | loadImage hact hreset hlen => exact ⟨State.boot_of_justReset hreset, _, hact, hlen⟩
  · refine (step_of_load hact).trans (load_of_late image fun hreset => ?_)
    cases hboot.symm.trans (State.boot_of_justReset hreset)

/-- Settles O60: the reset state is its own reset. -/
theorem resetAwaitsALoad : Obligations.ResetAwaitsALoad :=
  fun _ => ⟨rfl, fun _ => rfl⟩

/-- Settles O59: a cycle needs a program loaded and leaves one loaded; the other actions write the latch, the model's own
fields, or timers that are 0. -/
theorem coreIsAsResetUntilALoadSucceeds : Obligations.CoreIsAsResetUntilALoadSucceeds := by
  intro s t hs hstep hboot
  cases stepsTo_of_step hstep with
  | faulted hrun | fault hrun => exact absurd hrun.2 hboot
  | completed hrun hf hi =>
    obtain ⟨-, hkept⟩ := State.completed_keeps_host_fields hi
    exact absurd (hkept.trans hrun.2) hboot
  | loadImage => exact absurd rfl hboot
  | reset => rfl
  | setKey k b => exact congrArg (fun u : State => u.popAction.setKey k b) (hs hboot)
  | timerDecay => exact congrArg (fun u : State => u.popAction.timerDecay) (hs hboot)
  | read => exact congrArg State.popAction (hs hboot)
  | failLoad hreset =>
    have hawaits : s.boot ≠ .loaded := by rw [State.boot_of_justReset hreset]; nofun
    exact congrArg (fun u : State => u.popAction.failLoad) (hs hawaits)

end Sys2Proof.Machine
end

section
/-! PROOFS. Shifts and RND (42_alu.md R96, R98, R99), the call stack and the key skips (41_control_flow.md R78, R80, R86,
R87). -/

namespace Sys2Proof.Machine

/-! ### Shifts and the random draw -/

/-- Settles O31: the halved byte and the bit shifted out are a result and its flag. -/
theorem shrShiftsOutTheLowBit : Obligations.ShrShiftsOutTheLowBit := by
  intro s x y
  refine ⟨_, rfl, fun hx => ?_, ?_, s.setRegFlag_onlyRegsChange x _ _⟩
  · rw [State.reg_setRegFlag_of_ne hx, BitVec.toNat_ushiftRight, Nat.shiftRight_eq_div_pow]
  · rw [State.reg_setRegFlag_vF, lowBitFlag_toNat]

/-- Settles O32: the doubled byte and the bit shifted out are a result and its flag. -/
theorem shlShiftsOutTheHighBit : Obligations.ShlShiftsOutTheHighBit := by
  intro s x y
  refine ⟨_, rfl, fun hx => ?_, ?_, s.setRegFlag_onlyRegsChange x _ _⟩
  · rw [State.reg_setRegFlag_of_ne hx, BitVec.toNat_shiftLeft, Nat.shiftLeft_eq]
  · rw [State.reg_setRegFlag_vF, highBitFlag_toNat]

/-- Settles O33: RND is one register write and the next draw count, whatever byte the draw is. -/
theorem rndMasksAFreshDraw : Obligations.RndMasksAFreshDraw := by
  intro s x kk
  have hexec : exec (.rnd x kk) s =
      .next { s.setReg x (Config.randomDraw s.draws &&& kk) with draws := s.draws + 1 } := rfl
  have hx : State.reg { s.setReg x (Config.randomDraw s.draws &&& kk) with draws := s.draws + 1 } x =
      Config.randomDraw s.draws &&& kk := s.reg_setReg_self x _
  obtain ⟨hregs, -, -⟩ := s.setReg_onlyRegsChange x (Config.randomDraw s.draws &&& kk)
  refine ⟨_, hexec, fun k _ => ?_, fun hkk => ?_, fun hkk => ?_, rfl, hregs, fun _ => rfl, rfl⟩
  · rw [hx, BitVec.getLsbD_and]
  · rw [hx, hkk, BitVec.and_zero]
  · rw [hx, hkk]
    exact BitVec.and_allOnes

/-! ### The call stack -/

theorem handlerFault_call_of_lt {s : State} (h : s.sp.val < 16) (nnn : Addr12) : handlerFault s (.call nnn) = none :=
  if_neg (by omega)

theorem handlerFault_ret_of_pos {s : State} (h : 0 < s.sp.val) : handlerFault s .ret = none :=
  if_neg (by omega)

/-- Settles O35: with room on the stack CALL completes, writing the slot that SP names. -/
theorem callPushesTheReturnAddress : Obligations.CallPushesTheReturnAddress := by
  refine fun s nnn => ⟨fun hroom => ?_, fun hfull => exec_of_handlerFault (if_pos hfull)⟩
  refine ⟨_, exec_of_noFault (handlerFault_call_of_lt hroom nnn), directAddress_toNat nnn, sp_succ_val hroom,
    fun j => ?_, fun _ _ => rfl, fun _ => rfl, rfl⟩
  simp [State.completed, Vector.getElem_setIfInBounds, eq_comm]

/-- Settles O36: with an address on the stack RET completes, reading the slot below SP. -/
theorem retPopsTheReturnAddress : Obligations.RetPopsTheReturnAddress := by
  refine fun s => ⟨fun j hj => ?_, fun hempty => exec_of_handlerFault (if_pos hempty)⟩
  have hslot : s.sp.val - 1 = j.val := by omega
  refine ⟨_, exec_of_noFault (handlerFault_ret_of_pos (by omega)), ?_, (sp_pred_val (by omega)).trans hslot,
    fun _ _ => rfl, fun _ => rfl, rfl⟩
  simp [State.completed, hslot]

/-- Settles O37: the slot that RET reads is the one that CALL wrote, and SP is one up and one down. -/
theorem retUndoesCall : Obligations.RetUndoesCall := by
  intro s t u nnn hroom hcall hstack hsp
  obtain ⟨t', hcall', -, hspt, hslots, -⟩ := (callPushesTheReturnAddress s nnn).1 hroom
  cases hcall.symm.trans hcall'
  have huj : u.sp.val = (⟨s.sp.val, hroom⟩ : Fin 16).val + 1 := by rw [hsp, hspt]
  obtain ⟨z, hret, hpc, hspz, -, -, hz⟩ := (retPopsTheReturnAddress u).1 _ huj
  refine ⟨z, hret, ?_, Fin.ext hspz, ?_⟩
  · rw [hpc, hstack, hslots, if_pos rfl]
  · rw [hz]
    exact hstack

/-! ### The key skips -/

theorem exec_skp_of_key {s : State} {x : Reg} {k : Fin 16} (h : (s.reg x).toNat = k.val) :
    exec (.skp x) s = .next (s.skipIf (s.key[k] == true)) ∧
      exec (.sknp x) s = .next (s.skipIf (s.key[k] == false)) := by
  simp only [exec, execSkp, execSknp, State.skipIfKey, s.keyAt_of_lt _ k h, and_self]

/-- Settles O39: a key skip is a skip on the latched key, and its check is R114's key fault. -/
theorem keySkipsReadTheLatch : Obligations.KeySkipsReadTheLatch := by
  refine fun s x => ⟨fun k hk => ?_, fun hgt => ⟨exec_of_handlerFault (if_pos hgt), exec_of_handlerFault (if_pos hgt)⟩⟩
  obtain ⟨hskp, hsknp⟩ := exec_skp_of_key hk
  refine ⟨⟨_, hskp, ?_, s.skipIf_onlyPcChanges _⟩, ⟨_, hsknp, ?_, s.skipIf_onlyPcChanges _⟩⟩
  · rw [State.skipIf_pc]
    cases s.key[k] <;> rfl
  · rw [State.skipIf_pc]
    cases s.key[k] <;> rfl

end Sys2Proof.Machine
end

section
/-! PROOFS. The block transfers (43_index_memory.md R104 to R106; 20_memory.md R47): inside MEM each completes, and a read
of a stored block gives the bytes stored. -/

namespace Sys2Proof.Machine

/-! ### Blocks stored and loaded -/

/-- A byte of a stored block. -/
theorem State.readByte_storeBytes {s : State} (hwf : s.wf) (a : Nat) {bs : List Byte} {k : Nat} (hk : k < bs.length) :
    (s.storeBytes a bs).readByte (a + k) = bs.getD k 0#8 := by
  have hin : a ≤ a + k ∧ a + k < a + bs.length := by omega
  rw [State.readByte, State.storeBytes_mem, Memory.read_writeBytes hwf.1, if_pos hin, Nat.add_sub_cancel_left]

theorem State.storeBytes_keepsMemoryOutside (s : State) (a : Nat) (bs : List Byte) :
    KeepsMemoryOutside a bs.length s (s.storeBytes a bs) :=
  fun _ hb => Memory.read_writeBytes_outside s.mem hb

/-- A register of a stored block. -/
theorem State.readByte_storeRegs {s : State} (hwf : s.wf) {x k : Reg} (hk : k.val ≤ x.val) :
    (s.completed (.storeRegs x)).readByte (s.i.toNat + k.val) = s.reg k := by
  have hlen : k.val < (s.regsUpTo x).length := by rw [s.regsUpTo_length]; omega
  exact (State.readByte_storeBytes hwf _ hlen).trans (s.regsUpTo_getD x k hk)

theorem exec_storeRegs_of_inside {s : State} {x : Reg} (h : s.i.toNat + x.val < 4096) :
    exec (.storeRegs x) s = .next (s.completed (.storeRegs x)) :=
  exec_of_noFault (blockFault_of_inside (.inr h))

theorem exec_loadRegs_of_inside {s : State} {x : Reg} (h : s.i.toNat + x.val < 4096) :
    exec (.loadRegs x) s = .next (s.loadRegsFrom s.i.toNat x) :=
  exec_of_noFault (blockFault_of_inside (.inr h))

/-! ### The obligations -/

/-- Settles O41: the three digits are the block stored, each a quotient and a remainder of bytes. -/
theorem ldBStoresTheDecimalDigits : Obligations.LdBStoresTheDecimalDigits := by
  refine fun s x => ⟨fun hwf hin => ?_, fun hout => exec_of_handlerFault (blockFault_of_outside (by decide) (by omega))⟩
  have hdigit : ∀ k : Fin 3, (s.completed (.ldB x)).readByte (s.i.toNat + k.val) =
      (decimalDigits (s.reg x)).getD k.val 0#8 := fun k => State.readByte_storeBytes hwf _ k.isLt
  refine ⟨_, exec_of_noFault (blockFault_of_inside (.inr (by omega))), ?_, ?_, ?_,
    s.storeBytes_keepsMemoryOutside _ (decimalDigits (s.reg x)), fun _ _ => rfl, rfl⟩
  · exact (congrArg BitVec.toNat (hdigit 0)).trans (by simp [decimalDigits])
  · exact (congrArg BitVec.toNat (hdigit 1)).trans (by simp [decimalDigits])
  · exact (congrArg BitVec.toNat (hdigit 2)).trans (by simp [decimalDigits])

/-- Settles O42: V0 to Vx are the block stored. -/
theorem storeRegsWritesTheBlock : Obligations.StoreRegsWritesTheBlock := by
  refine fun s x => ⟨fun hwf hin => ?_, fun hout => exec_of_handlerFault (blockFault_of_outside (by omega) (by omega))⟩
  have hframe := s.storeBytes_keepsMemoryOutside s.i.toNat (s.regsUpTo x)
  rw [s.regsUpTo_length] at hframe
  exact ⟨_, exec_storeRegs_of_inside hin, fun k => State.readByte_storeRegs hwf, hframe, fun _ _ => rfl, rfl⟩

/-- Settles O43: V0 to Vx are read from the block. -/
theorem loadRegsReadsTheBlock : Obligations.LoadRegsReadsTheBlock := by
  refine fun s x => ⟨fun hin => ?_, fun hout => exec_of_handlerFault (blockFault_of_outside (by omega) (by omega))⟩
  have hkeeps : KeepsMemory s (s.loadRegsFrom s.i.toNat x) := State.readByte_congr (State.loadRegsFrom_mem s _ x)
  exact ⟨_, exec_loadRegs_of_inside hin, s.reg_loadRegsFrom s.i.toNat x, hkeeps, rfl⟩

/-- Settles O44: the load reads the bytes that the store wrote from the registers. -/
theorem storeThenLoadRestoresTheRegisters : Obligations.StoreThenLoadRestoresTheRegisters := by
  intro s t u x hwf hin hstore hmem hi
  cases hstore.symm.trans (exec_storeRegs_of_inside hin)
  have hui : u.i = s.i := hi
  refine ⟨_, exec_loadRegs_of_inside (hui ▸ hin), fun k hk => ?_⟩
  rw [State.reg_loadRegsFrom, if_pos hk, hui, State.readByte_congr hmem, State.readByte_storeRegs hwf hk]

/-- Settles O45: the fetch reads the two stored bytes at PC, which the store leaves where it is. -/
theorem storedBytesAreFetched : Obligations.StoredBytesAreFetched := by
  intro s t x j k hwf hin hjk hkx hpc hstore
  cases hstore.symm.trans (exec_storeRegs_of_inside hin)
  have hpc' : (s.completed (.storeRegs x)).pc.toNat = s.i.toNat + j.val := hpc
  rw [State.fetch_of_inside (by omega), wordAtPc, hpc', State.readByte_storeRegs hwf (by omega : j.val ≤ x.val),
    show s.i.toNat + j.val + 1 = s.i.toNat + k.val by omega, State.readByte_storeRegs hwf hkx]

end Sys2Proof.Machine
end

section
/-! PROOFS. DRW (45_graphics.md R111, R113): what the drawn sprite toggles and whether it collides, in the terms of
`spriteCovers`. -/

namespace Sys2Proof.Machine

/-! ### The sprite's bits -/

theorem spriteRows_length (s : State) (n : Nat) : (spriteRows s n).length = n :=
  Memory.readBytes_length _ _ _

/-- A row of the sprite is the byte at I plus its number. -/
theorem spriteRows_getD (s : State) {n k : Nat} (h : k < n) :
    (spriteRows s n).getD k 0#8 = s.readByte (s.i.toNat + k) := by
  have hk : k < (spriteRows s n).length := by rwa [spriteRows_length]
  rw [List.getD_eq_getElem _ _ hk]
  exact Memory.readBytes_getElem _ _ _ _ hk

/-- A pixel is covered where it lies in the sprite's box and its bit of its row is set. -/
theorem spriteCovers_iff (s : State) (x y : Reg) (n px py : Nat) :
    spriteCovers s x y n px py = true ↔
      originColumn s x ≤ px ∧ px < originColumn s x + 8 ∧ originRow s y ≤ py ∧ py < originRow s y + n ∧
        ((spriteRows s n).getD (py - originRow s y) 0#8).getLsbD (7 - (px - originColumn s x)) = true := by
  have hbox : spriteCovers s x y n px py = true ↔
      (originColumn s x ≤ px ∧ px < originColumn s x + 8 ∧ originRow s y ≤ py ∧ py < originRow s y + n) ∧
        (s.readByte (s.i.toNat + (py - originRow s y))).getLsbD (7 - (px - originColumn s x)) = true := by
    rw [← decide_eq_true_iff (p := _ ∧ _ ∧ _ ∧ _), ← Bool.and_eq_true]
    rfl
  rw [hbox]
  constructor
  · rintro ⟨⟨h1, h2, h3, h4⟩, hbit⟩
    exact ⟨h1, h2, h3, h4, by rwa [spriteRows_getD s (by omega)]⟩
  · rintro ⟨h1, h2, h3, h4, hbit⟩
    exact ⟨⟨h1, h2, h3, h4⟩, by rwa [spriteRows_getD s (by omega)] at hbit⟩

/-- States with the same memory, I and coordinate registers place the same sprite at the same pixels. -/
theorem spriteCovers_congr {s t : State} {x y : Reg} (hmem : t.mem = s.mem) (hi : t.i = s.i) (hx : t.reg x = s.reg x)
    (hy : t.reg y = s.reg y) (n px py : Nat) : spriteCovers t x y n px py = spriteCovers s x y n px py := by
  simp only [spriteCovers, hx, hy, hi, State.readByte_congr hmem]

/-! ### The drawn sprite -/

/-- The drawn framebuffer: the covered pixels are toggled. -/
theorem State.drawSprite_pixel (s : State) (x y : Reg) (n : Nat) {px py : Nat} (hx : px < 64) (hy : py < 32) :
    Framebuffer.pixel (s.drawSprite x y n).fb px py = (s.pixel px py != spriteCovers s x y n px py) := by
  rw [State.drawSprite, Canvas.drawRows_pixel, State.pixel]
  congr 1
  rw [Bool.eq_iff_iff, decide_eq_true_eq, spriteCovers_iff, spriteRows_length]
  exact ⟨fun ⟨_, _, h⟩ => h, fun h => ⟨hx, hy, h⟩⟩

/-- The sprite collides where a covered pixel was on. -/
theorem State.drawSprite_hit (s : State) (x y : Reg) (n : Nat) :
    (s.drawSprite x y n).hit = true ↔
      ∃ px py : Nat, px < 64 ∧ py < 32 ∧ spriteCovers s x y n px py = true ∧ s.pixel px py = true := by
  rw [State.drawSprite, Canvas.drawRows_hit, spriteRows_length]
  constructor
  · rintro (h | ⟨r, c, hr, hc, hbit, hon⟩)
    · cases h
    · have hin : originColumn s x + c < 64 ∧ originRow s y + r < 32 := by
        by_contra hout
        cases (Framebuffer.pixel_outside s.fb hout).symm.trans hon
      refine ⟨_, _, hin.1, hin.2, (spriteCovers_iff ..).2 ⟨by omega, by omega, by omega, by omega, ?_⟩, hon⟩
      rwa [Nat.add_sub_cancel_left, Nat.add_sub_cancel_left]
  · rintro ⟨px, py, -, -, hcov, hon⟩
    obtain ⟨h1, h2, h3, h4, hbit⟩ := (spriteCovers_iff ..).1 hcov
    refine .inr ⟨py - originRow s y, px - originColumn s x, by omega, by omega, hbit, ?_⟩
    rwa [Nat.add_sub_cancel' h1, Nat.add_sub_cancel' h3]

/-! ### What DRW leaves -/

theorem exec_drw_of_inside {s : State} {n : Nat} (h : n = 0 ∨ s.i.toNat + n ≤ 4096) (x y : Reg) :
    exec (.drw x y n) s = .next (s.completed (.drw x y n)) :=
  exec_of_noFault (blockFault_of_inside h)

theorem State.completed_drw_pixel (s : State) (x y : Reg) (n : Nat) {px py : Nat} (hx : px < 64) (hy : py < 32) :
    (s.completed (.drw x y n)).pixel px py = (s.pixel px py != spriteCovers s x y n px py) :=
  s.drawSprite_pixel x y n hx hy

theorem State.completed_drw_reg (s : State) (x y : Reg) (n : Nat) {r : Reg} (hr : r ≠ 0xF) :
    (s.completed (.drw x y n)).reg r = s.reg r :=
  State.reg_setReg_of_ne (Ne.symm hr) _

theorem State.completed_drw_vF (s : State) (x y : Reg) (n : Nat) :
    (s.completed (.drw x y n)).reg 0xF = flagOf (s.drawSprite x y n).hit :=
  State.reg_setReg_self _ _ _

/-- VF after DRW is 1 exactly when a covered pixel was on. -/
theorem State.completed_drw_vF_eq_one_iff (s : State) (x y : Reg) (n : Nat) :
    (s.completed (.drw x y n)).reg 0xF = 1#8 ↔
      ∃ px py : Nat, px < 64 ∧ py < 32 ∧ spriteCovers s x y n px py = true ∧ s.pixel px py = true := by
  rw [State.completed_drw_vF, ← s.drawSprite_hit]
  cases (s.drawSprite x y n).hit <;> decide

/-- VF after DRW is 0 when every covered pixel was off. -/
theorem State.completed_drw_vF_eq_zero {s : State} {x y : Reg} {n : Nat}
    (h : ∀ px py : Nat, px < 64 → py < 32 → spriteCovers s x y n px py = true → s.pixel px py = false) :
    (s.completed (.drw x y n)).reg 0xF = 0#8 := by
  have hnohit : (s.drawSprite x y n).hit = false := by
    rw [Bool.eq_false_iff, ne_eq, s.drawSprite_hit]
    rintro ⟨px, py, hx, hy, hcov, hon⟩
    cases (h px py hx hy hcov).symm.trans hon
  rw [State.completed_drw_vF, hnohit]
  rfl

/-! ### The obligations -/

/-- Settles O49: the drawn framebuffer and the collision of the sprite, and VF and FB as the only fields written. -/
theorem drwTogglesTheSpriteAndReportsCollision : Obligations.DrwTogglesTheSpriteAndReportsCollision := by
  refine fun s x y n => ⟨fun hin => ?_, fun hn hout => exec_of_handlerFault (blockFault_of_outside hn hout)⟩
  exact ⟨_, exec_drw_of_inside hin x y, fun px py => s.completed_drw_pixel x y n,
    (s.completed_drw_vF_eq_one_iff x y n).2,
    State.completed_drw_vF_eq_zero, fun r hr => s.completed_drw_reg x y n (by simpa using hr), fun _ => rfl, rfl⟩

/-- Settles O50: the second draw covers the same pixels, toggles each back, and finds on those that were off. -/
theorem drawingTwiceRestoresTheScreen : Obligations.DrawingTwiceRestoresTheScreen := by
  intro s t x y n hx hy hin hdraw
  cases hdraw.symm.trans (exec_drw_of_inside hin x y)
  have hcov : ∀ px py, spriteCovers (s.completed (.drw x y n)) x y n px py = spriteCovers s x y n px py :=
    spriteCovers_congr (s := s) (t := s.completed (.drw x y n)) rfl rfl (s.completed_drw_reg x y n hx)
      (s.completed_drw_reg x y n hy) n
  refine ⟨_, exec_drw_of_inside (s := s.completed (.drw x y n)) hin x y,
    Framebuffer.ext_pixel fun px py hpx hpy => ?_, ?_, byte_eq_zero_or_one (State.completed_flag _ rfl)⟩
  · refine (State.completed_drw_pixel _ x y n hpx hpy).trans ?_
    rw [s.completed_drw_pixel x y n hpx hpy, hcov, Bool.bne_assoc, bne_self_eq_false, Bool.bne_false]
    rfl
  · rw [State.completed_drw_vF_eq_one_iff]
    refine exists₂_congr fun px py => and_congr_right fun hpx => and_congr_right fun hpy => ?_
    rw [hcov, s.completed_drw_pixel x y n hpx hpy]
    cases spriteCovers s x y n px py <;> cases s.pixel px py <;> decide

/-- Settles O51: on a cleared screen no covered pixel is on. -/
theorem noCollisionAfterCls : Obligations.NoCollisionAfterCls := by
  intro s t u x y n hcls hfb hin
  cases hcls.symm.trans (exec_cls s)
  refine ⟨_, exec_drw_of_inside hin x y, State.completed_drw_vF_eq_zero fun px py _ _ _ => ?_⟩
  exact (State.pixel_congr hfb px py).trans (Framebuffer.pixel_replicate_zero px py)

end Sys2Proof.Machine
end
